-- ==== Sys2Proof/Word.lean ====
section
/-! DEFINITION. The words and bytes of the Salsa20 unit (spec 00_scope.md R7, R8) and the plainest arithmetic on
them: 32-bit wrapping addition. Rotation and byte order stand in `Machine/`, where the commands use them. -/

namespace Sys2Proof

/-- A byte: an unsigned integer below 256 (R7). -/
abbrev Byte := BitVec 8

/-- A word: an unsigned integer below 2^32, bit 0 the least significant (R7). -/
abbrev Word := BitVec 32

/-- Sixteen words: the shape of `S` (R20), of `K` (R24) and of the scratch array `x` (R12). -/
abbrev Block := Vector Word 16

/-- `add32(x, y) = (x + y) mod 2^32`; no carry, no flag, no trap (R8). -/
abbrev add32 (x y : Word) : Word := x + y

/-- Sixteen zero words: the value DESTROY and reset give `S` and `K` (R35, R121). -/
def Block.zero : Block := Vector.replicate 16 0

end Sys2Proof
end

