-- ==== Sys2Proof/Machine/State.lean ====
section
/-! DEFINITION. The state of one unit: the four architectural objects of 10_state.md (`S`, `K`, `POS`, `MODE`) and the
two byte streams that join the unit to its host (20_memory.md R40, R41). There is no program counter (R29), no flag
(R28), no control register (R30), no addressable memory (R31, R46) and no scratch between commands (R32). -/

namespace Sys2Proof.Machine

/-- `MODE`: whether a context exists, and its layout (R27). -/
inductive Mode where
  /-- No context: never initialised since reset, or destroyed. Code 0. -/
  | idle
  /-- A context with an 8-byte effective nonce. Code 1. -/
  | n8
  /-- A context with a 12-byte nonce. Code 2. -/
  | n12
  /-- A context with a 16-byte nonce. Code 3. -/
  | n16
deriving DecidableEq, Repr

/-- Reasons the machine stops with a fault: none. Every error kind of the spec is answered in the response stream and
the unit goes on (R150, R161), so no constructor is needed and no step can end here. -/
inductive Fault where
deriving DecidableEq, Repr

/-- Reasons an instruction has no meaning. -/
inductive Refusal where
  /-- Raised by an arm of `exec` whose instruction has no meaning yet, and by nothing else. Safe: the model stops where
  the hardware goes on. No arm of this model raises it. -/
  | notModelled (mnemonic : String)
deriving DecidableEq, Repr

/-- The state of one unit. -/
structure State where
  /-- `S[0..15]`, the State of the cipher context (R20). -/
  S : Block
  /-- `K[0..15]`, the keystream buffer (R24). -/
  K : Block
  /-- `POS`, how many bytes of the current block have been used, 0 to 63 (R26). -/
  pos : BitVec 6
  /-- `MODE` (R27). -/
  mode : Mode
  /-- The command stream: bytes the host has appended and the unit has not removed, oldest first (R40). -/
  cmd : List Byte
  /-- The response stream: bytes the unit has appended and the host has not removed, oldest first (R41). -/
  rsp : List Byte
deriving DecidableEq, Repr

/-- The state after reset and after power-up (R35, R180). -/
def State.reset : State :=
  { S := Block.zero, K := Block.zero, pos := 0, mode := .idle, cmd := [], rsp := [] }

end Sys2Proof.Machine
end

