-- ==== Sys2Proof/Machine/Flags.lean ====
section
/-! DEFINITION. The unit has no condition codes, no carry or overflow flag and no sticky error flag (10_state.md R28).
What it has in their place is the status word `SW`, a function of `MODE` and `POS` and no storage (R30). -/

namespace Sys2Proof.Machine

/-- The 2-bit code of `MODE` (R27). -/
def Mode.code : Mode → BitVec 2
  | .idle => 0
  | .n8 => 1
  | .n12 => 2
  | .n16 => 3

/-- `SW = MODE + 256 POS`: `SW[1:0]` is `MODE`, `SW[13:8]` is `POS`, every other bit 0 (R30, R123). -/
def statusWord (mode : Mode) (pos : BitVec 6) : Word :=
  BitVec.ofNat 32 (mode.code.toNat + 256 * pos.toNat)

end Sys2Proof.Machine
end

