-- ==== Sys2Proof/Config.lean ====
section
/-! DEFINITION. The parameters of the unit (spec 00_scope.md R6), every row of its table, each at the value the spec gives
it. The ones the source fixes are constants of the algorithm (R192); `ctrPolicy` (D9, U1, U2) and `n12CtrHalf` (D25, U3)
are the ones 93_implementation_defined.md asks a model to carry as parameters. The spec leaves no value open that a step
reads, so this file holds no free value. `wordBits` and `nwords` are also the widths written in the types `Word` and
`Block`, which have one width each; `Laws/Config.lean` shows the two agree. -/

namespace Sys2Proof

/-- Which words of `S` the counter increment touches (93_implementation_defined.md U1, U2). -/
inductive CtrPolicy where
  /-- The counter words of the layout in force (R23, R116): this spec's value (D9). -/
  | perLayout
  /-- `S[8]` with carry into `S[9]` in every layout: the reading 90_conflicts.md C3 sets aside. -/
  | always89
deriving DecidableEq, Repr

/-- Which half of the counter operand a 12-byte-nonce context stores in `S[9]` (93_implementation_defined.md U3). -/
inductive CtrHalf where
  /-- `counter[63:32]`: this spec's value (D25, 90_conflicts.md C8). -/
  | hi
  /-- `counter[31:0]`: the alternative U3 names. -/
  | lo
deriving DecidableEq, Repr

namespace Config

/-- `WORD`: bits of a word (R6, R7). -/
abbrev wordBits : Nat := 32

/-- `NWORDS`: words of `S` and of `K` (R6, R20, R24). -/
abbrev nwords : Nat := 16

/-- `ID`: names the spec and carries no meaning; R6 gives no rule that reads it (R2, D1). -/
def id : String := "salsa20u-1"

/-- `NCTX`: contexts in one unit (R6, R56, D2). `Machine.State` is that one context with its two streams; no step reads
the number. -/
abbrev contexts : Nat := 1

/-- `BLOCK_BYTES`: bytes of one keystream block (R6). -/
abbrev blockBytes : Nat := 64

/-- `KEY_BYTES`: bytes of the effective key (R6). -/
abbrev keyBytes : Nat := 32

/-- `DOUBLE_ROUNDS`: iterations of the double round in `permute` (R95). -/
abbrev doubleRounds : Nat := 10

/-- `COL_QUADS`: the index quadruples of the column rounds, in order (R6, R93). -/
def colQuads : List (Fin 16 × Fin 16 × Fin 16 × Fin 16) :=
  [(0, 4, 8, 12), (5, 9, 13, 1), (10, 14, 2, 6), (15, 3, 7, 11)]

/-- `ROW_QUADS`: the index quadruples of the row rounds, in order (R6, R93). -/
def rowQuads : List (Fin 16 × Fin 16 × Fin 16 × Fin 16) :=
  [(0, 1, 2, 3), (5, 6, 7, 4), (10, 11, 8, 9), (15, 12, 13, 14)]

/-- `HS_OUT`: the words HSalsa20 returns, in order (R6, R140). -/
def hsOut : List (Fin 16) := [0, 5, 10, 15, 6, 7, 8, 9]

/-- `NONCE_LENGTHS`, the effective nonce of layout N8 (R6, R23). -/
abbrev nonceN8 : Nat := 8

/-- `NONCE_LENGTHS`, the effective nonce of layout N12 (R6, R23). -/
abbrev nonceN12 : Nat := 12

/-- `NONCE_LENGTHS`, the effective nonce of layout N16 (R6, R23). -/
abbrev nonceN16 : Nat := 16

/-- `NONCE_LENGTHS`, the nonce INIT reduces by HSalsa20 (R6, R113). -/
abbrev nonceReduced : Nat := 24

/-- `NONCE_LENGTHS` of INIT (R6, R112). -/
def nonceLengths : List Nat := [nonceN8, nonceN12, nonceN16, nonceReduced]

/-- `NONCE_LENGTHS` of HSALSA, and of the part of a nonce that INIT gives to HSalsa20 (R6, R113, R141). -/
abbrev hsalsaNonce : Nat := 16

/-- `ROT`, the amount of the quarter-round statement that writes `x[b]` (R90). -/
abbrev rotB : Nat := 7

/-- `ROT`, the amount of the statement that writes `x[c]` (R90). -/
abbrev rotC : Nat := 9

/-- `ROT`, the amount of the statement that writes `x[d]` (R90). -/
abbrev rotD : Nat := 13

/-- `ROT`, the amount of the statement that writes `x[a]` (R90). -/
abbrev rotA : Nat := 18

/-- `SIGMA`, the word at index 0 (R22). -/
abbrev sigma0 : Word := 0x61707865

/-- `SIGMA`, the word at index 5 (R22). -/
abbrev sigma5 : Word := 0x3320646e

/-- `SIGMA`, the word at index 10 (R22). -/
abbrev sigma10 : Word := 0x79622d32

/-- `SIGMA`, the word at index 15 (R22). -/
abbrev sigma15 : Word := 0x6b206574

/-- `KLEN_BITS`, `NLEN_BITS`: bits of a declared key or nonce length (R6, R66, D5). -/
abbrev declaredLengthBits : Nat := 8

/-- `LEN_BITS`: bits of the length of a CRYPT (R6, R69, D6). -/
abbrev lenBits : Nat := 32

/-- `CTR_POLICY` (R6, R116, D9). -/
abbrev ctrPolicy : CtrPolicy := .perLayout

/-- `N12_CTR_HALF` (R23, R110, D25). -/
abbrev n12CtrHalf : CtrHalf := .hi

end Config

end Sys2Proof
end

