-- ==== Sys2Proof/Machine/Operands.lean ====
section
/-! DEFINITION. How operands are made of bytes and results are turned back into bytes: the little-endian conversions
of 00_scope.md R11, the only byte order the unit has (20_memory.md R44, R45), and the bit slices of R7. The unit has no
other operand form: no addressing mode, no sign extension, no scaling (30_encoding.md R70, R146). -/

namespace Sys2Proof

/-- `CmdRead(n)` on the bytes of a stream: the next `n` bytes and what is left (R12, R40). -/
def cmdRead (n : Nat) (bytes : List Byte) : List Byte × List Byte := (bytes.take n, bytes.drop n)

/-- The byte slice `b[lo:hi]`: bytes `lo` up to but not including `hi` (R12). -/
def slice (b : List Byte) (lo hi : Nat) : List Byte := (b.take hi).drop lo

/-- Byte `i` of a byte string. Every rule reads inside the string; outside it the value is never used. -/
def byteAt (b : List Byte) (i : Nat) : Byte := b.getD i 0

/-- `load32_le(b, o) = b[o] + 2^8 b[o+1] + 2^16 b[o+2] + 2^24 b[o+3]` (R11). -/
def load32le (b : List Byte) (o : Nat) : Word :=
  BitVec.ofNat 32 ((byteAt b o).toNat + 0x100 * (byteAt b (o + 1)).toNat + 0x10000 * (byteAt b (o + 2)).toNat
    + 0x1000000 * (byteAt b (o + 3)).toNat)

/-- `load64_le(b, o) = load32_le(b, o) + 2^32 load32_le(b, o + 4)` (R11). -/
def load64le (b : List Byte) (o : Nat) : BitVec 64 :=
  BitVec.ofNat 64 ((load32le b o).toNat + 0x100000000 * (load32le b (o + 4)).toNat)

/-- `store32_le(w) = (w[7:0], w[15:8], w[23:16], w[31:24])` (R11). -/
def store32le (w : Word) : List Byte :=
  [w.extractLsb' 0 8, w.extractLsb' 8 8, w.extractLsb' 16 8, w.extractLsb' 24 8]

/-- The eight bytes `load64_le` reads back as `v`, least significant first (R11). -/
def store64le (v : BitVec 64) : List Byte :=
  store32le (v.extractLsb' 0 32) ++ store32le (v.extractLsb' 32 32)

/-- `words_le(b)` for a 64-byte string: `x[i] = load32_le(b, 4 i)` (R11, R70). -/
def wordsLe (b : List Byte) : Block := Vector.ofFn fun i => load32le b (4 * i.val)

/-- `bytes_le(ws)`: the concatenation of `store32_le(ws[i])` in index order (R11). -/
def bytesLe (x : Block) : List Byte := x.toList.flatMap store32le

end Sys2Proof
end

