-- ==== Sys2Proof/Syntax.lean ====
section
/-! DEFINITION. The seven commands of the unit, one constructor per row of spec/opcode_table.json, with the operands
30_encoding.md R70 assembles from the packet. The lengths `KLEN`, `NLEN` and `ILEN` are true lengths (R66, R69): they
are the lengths of the byte lists, not operands of their own. -/

namespace Sys2Proof

/-- A command with its operands (R60, R70). -/
inductive Instr where
  /-- QR: one quarter-round on the words `a`, `b`, `c`, `d` of the operand array `x` (R91). -/
  | qr (a b c d : Fin 16) (x : Block)
  /-- PERMUTE: the 20-round permutation of the operand array `x` (R96). -/
  | permute (x : Block)
  /-- HSALSA: the HSalsa20 reduction of `key` and `nonce` (R141). -/
  | hsalsa (key nonce : List Byte)
  /-- INIT: create or replace the cipher context (R110). -/
  | init (counter : BitVec 64) (key nonce : List Byte)
  /-- CRYPT: XOR `input` with the keystream; `olen` is the capacity of the host's output buffer (R117). -/
  | crypt (olen : Word) (input : List Byte)
  /-- DESTROY: zeroise the context (R121). -/
  | destroy
  /-- STATUS: return the status word (R123). -/
  | status
deriving DecidableEq, Repr

end Sys2Proof
end

