-- ==== Sys2Proof/WellFormed.lean ====
section
/-! DEFINITION. Which commands an encoding exists for: the declared lengths must fit their fields (30_encoding.md R66,
R69). A well-formed command may still be answered with an error; that is the command's own rule. -/

namespace Sys2Proof

/-- `KLEN` and `NLEN` are 8-bit header fields (R66). -/
def declarable (bytes : List Byte) : Bool := decide (bytes.length < 2 ^ Config.declaredLengthBits)

/-- `ILEN` is a 32-bit field (R69). -/
def sendable (bytes : List Byte) : Bool := decide (bytes.length < 2 ^ Config.lenBits)

/-- The command has an encoding (R66, R69). -/
def Instr.wf : Instr → Bool
  | .qr _ _ _ _ _ => true
  | .permute _ => true
  | .hsalsa key nonce => declarable key && declarable nonce
  | .init _ key nonce => declarable key && declarable nonce
  | .crypt _ input => sendable input
  | .destroy => true
  | .status => true

end Sys2Proof
end

