-- ==== Sys2Proof/Decode.lean ====
section
/-! DEFINITION. Decoding of the command stream (30_encoding.md R60 to R73, R76), total on any bytes, and the encoder
written from the same tables. A decode ends in one of three ways: the packet is not whole yet, the header is illegal, or
a command with the bytes that follow its packet. -/

namespace Sys2Proof

/-- The seven opcodes (R71). -/
inductive Opcode where
  | qr | permute | hsalsa | init | crypt | destroy | status
deriving DecidableEq, Repr

/-- `OPC`, the first byte of the header (R71). -/
def Opcode.byte : Opcode → Byte
  | .qr => 0x01
  | .permute => 0x02
  | .hsalsa => 0x03
  | .init => 0x10
  | .crypt => 0x11
  | .destroy => 0x12
  | .status => 0x13

/-- A row of the opcode map: a header word `HW` selects it when `HW & mask = value` (R71). -/
structure OpcodeRow where
  op : Opcode
  value : Word
  mask : Word
deriving DecidableEq, Repr

/-- The complete opcode map (R71). -/
def opcodeMap : List OpcodeRow :=
  [⟨.qr, 0x00000001, 0xFF0000FF⟩,
   ⟨.permute, 0x00000002, 0xFFFFFFFF⟩,
   ⟨.hsalsa, 0x00000003, 0xFF0000FF⟩,
   ⟨.init, 0x00000010, 0xFF0000FF⟩,
   ⟨.crypt, 0x00000011, 0xFFFFFFFF⟩,
   ⟨.destroy, 0x00000012, 0xFFFFFFFF⟩,
   ⟨.status, 0x00000013, 0xFFFFFFFF⟩]

/-- `HW` selects the row (R62 step 2). -/
def OpcodeRow.selects (r : OpcodeRow) (hw : Word) : Bool := hw &&& r.mask == r.value

/-- The row a header word selects; none when the header is illegal (R62 steps 2 and 3, R72). -/
def selectRow (hw : Word) : Option Opcode := (opcodeMap.find? (·.selects hw)).map (·.op)

/-- `HW[7:0]`, the opcode byte, echoed in the response (R61, R74). -/
def headerOpc (hw : Word) : Byte := hw.extractLsb' 0 8

/-- `F1 = HW[15:8]`; `KLEN` in format L (R61, R66). -/
def headerF1 (hw : Word) : Byte := hw.extractLsb' 8 8

/-- `F2 = HW[23:16]`; `NLEN` in format L (R61, R66). -/
def headerF2 (hw : Word) : Byte := hw.extractLsb' 16 8

/-- A 4-bit index field of format Q, at bits `lo + 3` to `lo` (R64). -/
def headerIndex (hw : Word) (lo : Nat) : Fin 16 := (hw.extractLsb' lo 4).toFin

/-- The number of body bytes of a legal packet; `none` while the bytes that determine it have not arrived, which only
CRYPT's length fields can cause (R60, R69, R76). -/
def bodyLength (op : Opcode) (hw : Word) (body : List Byte) : Option Nat :=
  match op with
  | .qr => some 64
  | .permute => some 64
  | .hsalsa => some ((headerF1 hw).toNat + (headerF2 hw).toNat)
  | .init => some (8 + (headerF1 hw).toNat + (headerF2 hw).toNat)
  | .crypt => if body.length < 8 then none else some (8 + (load32le body 0).toNat)
  | .destroy => some 0
  | .status => some 0

/-- The command made of the header fields and the whole body (R67, R69, R70). -/
def assemble (op : Opcode) (hw : Word) (body : List Byte) : Instr :=
  let klen := (headerF1 hw).toNat
  let nlen := (headerF2 hw).toNat
  match op with
  | .qr => .qr (headerIndex hw 8) (headerIndex hw 12) (headerIndex hw 16) (headerIndex hw 20) (wordsLe body)
  | .permute => .permute (wordsLe body)
  | .hsalsa => .hsalsa (slice body 0 klen) (slice body klen (klen + nlen))
  | .init => .init (load64le body 0) (slice body 8 (8 + klen)) (slice body (8 + klen) (8 + klen + nlen))
  | .crypt => .crypt (load32le body 4) (slice body 8 (8 + (load32le body 0).toNat))
  | .destroy => .destroy
  | .status => .status

/-- What the front of the command stream holds (R43, R62). -/
inductive Decoded where
  /-- Fewer bytes than the packet needs: the unit holds (R43). -/
  | hold
  /-- A header that matches no row: the packet is those 4 bytes (R62 step 3, R72). -/
  | illegal (hw : Word) (rest : List Byte)
  /-- A whole legal packet, removed from the stream (R62 step 4). -/
  | packet (i : Instr) (rest : List Byte)
deriving DecidableEq, Repr

/-- Decoding, total on any byte sequence (R62). -/
def decode (bytes : List Byte) : Decoded :=
  if bytes.length < 4 then .hold
  else
    let hw := load32le bytes 0
    let body := (cmdRead 4 bytes).2
    match selectRow hw with
    | none => .illegal hw body
    | some op =>
      match bodyLength op hw body with
      | none => .hold
      | some n =>
        if body.length < n then .hold
        else .packet (assemble op hw (cmdRead n body).1) (cmdRead n body).2

/-- The header bytes `OPC`, `F1`, `F2`, `RSV = 0` in stream order (R61). -/
def header (op : Opcode) (f1 f2 : Byte) : List Byte := [op.byte, f1, f2, 0]

/-- A byte holding a length of at most 255 (R66). -/
def lengthByte (b : List Byte) : Byte := BitVec.ofNat 8 b.length

/-- Two index fields in one byte, `lo` in bits 3 to 0: `F1 = 16 b + a`, `F2 = 16 d + c` (R64). -/
def indexByte (lo hi : Fin 16) : Byte := BitVec.ofNat 8 (16 * hi.val + lo.val)

/-- The packet of a command (R63 to R70). -/
def encode : Instr → List Byte
  | .qr a b c d x => header .qr (indexByte a b) (indexByte c d) ++ bytesLe x
  | .permute x => header .permute 0 0 ++ bytesLe x
  | .hsalsa key nonce => header .hsalsa (lengthByte key) (lengthByte nonce) ++ key ++ nonce
  | .init counter key nonce =>
    header .init (lengthByte key) (lengthByte nonce) ++ store64le counter ++ key ++ nonce
  | .crypt olen input =>
    header .crypt 0 0 ++ store32le (BitVec.ofNat 32 input.length) ++ store32le olen ++ input
  | .destroy => header .destroy 0 0
  | .status => header .status 0 0

/-- The length of the packet of a command, by the table of R60. -/
def Instr.packetBytes : Instr → Nat
  | .qr _ _ _ _ _ => 68
  | .permute _ => 68
  | .hsalsa key nonce => 4 + key.length + nonce.length
  | .init _ key nonce => 12 + key.length + nonce.length
  | .crypt _ input => 12 + input.length
  | .destroy => 4
  | .status => 4

/-- The first `n` bytes of `w`, least significant first: the bytes of a table word in stream order (R61). -/
def tableBytes : Nat → Nat → List Byte
  | 0, _ => []
  | n + 1, w => BitVec.ofNat 8 w :: tableBytes n (w / 256)

/-- Exactly `n` bytes: those of `b`, cut or filled up with zeros. -/
def fitBytes (n : Nat) (b : List Byte) : List Byte := b.take n ++ List.replicate (n - b.length) 0

/-- The length of the packet whose first 12 bytes (header, and CRYPT's length fields) these are (R60, R76). -/
def framedLength (front : List Byte) : Nat :=
  match selectRow (load32le front 0) with
  | none => 4
  | some op => 4 + (bodyLength op (load32le front 0) (front.drop 4)).getD 0

/-- The packet of a word of spec/opcode_table.json: its `nbits` bits in stream order, every bit above them 0, in exactly
the bytes the packet has. -/
def tablePacket (nbits w : Nat) : List Byte :=
  let given := tableBytes (nbits / 8) w
  fitBytes (framedLength (fitBytes 12 given)) given

/-- The command the decoder reads from a word of spec/opcode_table.json. -/
def decodeTableWord (nbits w : Nat) : Option Instr :=
  match decode (tablePacket nbits w) with
  | .packet i _ => some i
  | .illegal _ _ => none
  | .hold => none

end Sys2Proof
end

