-- ==== Sys2Proof/Machine/Ops.lean ====
section
/-! DEFINITION. The shared operations over the state: the one write accessor of each object, the byte view of the
keystream buffer, responses, and raising an error, which is this unit's way of taking an exception (60_exceptions.md
R150). There is no handler, so there is no return from an exception to stand beside it (R161). -/

namespace Sys2Proof.Machine

/-- `S <- x` (R12). -/
def State.setS (s : State) (x : Block) : State := { s with S := x }

/-- `K <- x` (R12). -/
def State.setK (s : State) (x : Block) : State := { s with K := x }

/-- `POS <- p` (R12). -/
def State.setPos (s : State) (p : BitVec 6) : State := { s with pos := p }

/-- `MODE <- m` (R12). -/
def State.setMode (s : State) (m : Mode) : State := { s with mode := m }

/-- The command stream once the bytes of a packet have been removed from its front (R40). -/
def State.setCmd (s : State) (bytes : List Byte) : State := { s with cmd := bytes }

/-- `RspWrite(bs)`: append to the response stream, which never fills up (R12, R41). -/
def State.rspWrite (s : State) (bytes : List Byte) : State := { s with rsp := s.rsp ++ bytes }

/-- `KB[j] = K[j div 4][8 (j mod 4) + 7 : 8 (j mod 4)]`, the byte view of a keystream block (R25). -/
def keyByte (k : Block) (j : BitVec 6) : Byte :=
  (k[j.toNat / 4]'(by have := j.isLt; omega)).extractLsb' (8 * (j.toNat % 4)) 8

/-- The six error kinds (R158). -/
inductive ErrorKind where
  | invalidKeySize | invalidNonceSize | outputTooSmall | invalidArgument | notReady | illegalCommand
deriving DecidableEq, Repr

/-- The status code of an error kind (R158). -/
def ErrorKind.code : ErrorKind → Byte
  | .invalidKeySize => 0x01
  | .invalidNonceSize => 0x02
  | .outputTooSmall => 0x03
  | .invalidArgument => 0x04
  | .notReady => 0x05
  | .illegalCommand => 0x06

/-- The status code of success (R158). -/
def statusOk : Byte := 0x00

/-- The response word `RW`: `RW[7:0] = ST`, `RW[15:8]` echoes the command's first byte, the rest 0 (R74). -/
def responseWord (st opc : Byte) : Word := BitVec.ofNat 32 (st.toNat + 256 * opc.toNat)

/-- A response as bytes: the 4-byte response header, then the body (R74). -/
def responseBytes (st opc : Byte) (body : List Byte) : List Byte := store32le (responseWord st opc) ++ body

/-- The response of a command that succeeds (R74, R75). -/
def respond (op : Opcode) (body : List Byte) (s : State) : State :=
  s.rspWrite (responseBytes statusOk op.byte body)

/-- `raise E`: the unit's exception entry. Nothing of `S`, `K`, `POS`, `MODE` is written; the 4-byte response
`store32_le(code(E) + 256 OPC)` is appended, with no body; the next packet follows as after a success (R150). -/
def raise (e : ErrorKind) (opc : Byte) (s : State) : State :=
  s.rspWrite (responseBytes e.code opc [])

/-- What the unit does on an illegal header, once its 4 bytes have been removed (R72, R157). -/
def illegalCommand (hw : Word) (s : State) : State := raise .illegalCommand (headerOpc hw) s

/-- What the unit does while the packet at the front of the stream is not whole: nothing (R43). -/
def hold (s : State) : State := s

end Sys2Proof.Machine
end

