-- ==== Sys2Proof/Machine/Permutation.lean ====
section
/-! DEFINITION. The permutation core (40_permutation.md): quarter-round, double round, permutation, and the commands QR
and PERMUTE that expose the first and the last. -/

namespace Sys2Proof.Machine

/-- `rotl32(w, n) = ((w 2^n) mod 2^32) + (w >> (32 - n))`, for `n` in 7, 9, 13, 18 (R9). -/
def rotl32 (w : Word) (n : Nat) : Word := (w <<< n) + (w >>> (Config.wordBits - n))

/-- One statement of the quarter-round: `x[t] <- x[t] ^ rotl32(add32(x[u], x[v]), n)` (R90). -/
def mixWord (x : Block) (t u v : Fin 16) (n : Nat) : Block :=
  x.set t (x[t] ^^^ rotl32 (add32 x[u] x[v]) n)

/-- The quarter-round: four statements in this order, each seeing the writes of the ones before it, for any indices,
repeated ones among them (R90, R92). -/
def quarterRound (x : Block) (a b c d : Fin 16) : Block :=
  let x := mixWord x b a d Config.rotB
  let x := mixWord x c b a Config.rotC
  let x := mixWord x d c b Config.rotD
  mixWord x a d c Config.rotA

/-- Quarter-rounds on index quadruples `(a, b, c, d)`, in the order of the list, on the same array (R93). -/
def quarterRounds (quads : List (Fin 16 × Fin 16 × Fin 16 × Fin 16)) (x : Block) : Block :=
  quads.foldl (fun y q => quarterRound y q.1 q.2.1 q.2.2.1 q.2.2.2) x

/-- The four column rounds (R93). -/
def columnRounds (x : Block) : Block := quarterRounds Config.colQuads x

/-- The four row rounds (R93). -/
def rowRounds (x : Block) : Block := quarterRounds Config.rowQuads x

/-- The double round: the column rounds, then the row rounds (R93). -/
def dround (x : Block) : Block := rowRounds (columnRounds x)

/-- `n` double rounds, one after the other (R95). -/
def drounds : Nat → Block → Block
  | 0, x => x
  | n + 1, x => drounds n (dround x)

/-- The permutation: ten double rounds, with nothing added back (R95). -/
def permute (x : Block) : Block := drounds Config.doubleRounds x

/-- QR (R91). -/
def execQr (a b c d : Fin 16) (x : Block) (s : State) : Host.Outcome State Fault Refusal :=
  .next (respond .qr (bytesLe (quarterRound x a b c d)) s)

/-- PERMUTE (R96). -/
def execPermute (x : Block) (s : State) : Host.Outcome State Fault Refusal :=
  .next (respond .permute (bytesLe (permute x)) s)

end Sys2Proof.Machine
end

