-- ==== Sys2Proof/Machine/Hsalsa.lean ====
section
/-! DEFINITION. The layout of a 16-word state (10_state.md R21, R22), and the HSalsa20 reduction with its command
(42_hsalsa20.md). -/

namespace Sys2Proof.Machine

/-- The 16-word layout: constants at 0, 5, 10, 15, the 32-byte key `k` at 1 to 4 and 11 to 14, and the four words the
nonce and the counter fill at 6 to 9 (R21, R22). -/
def layoutWords (k : List Byte) (w6 w7 w8 w9 : Word) : Block :=
  #v[Config.sigma0, load32le k 0, load32le k 4, load32le k 8,
     load32le k 12, Config.sigma5, w6, w7,
     w8, w9, Config.sigma10, load32le k 16,
     load32le k 20, load32le k 24, load32le k 28, Config.sigma15]

/-- `hsalsa20(key, nonce16)`: the 16-byte-nonce layout, permuted without feed-forward; the derived key is the words
`HS_OUT` names, in that order (R140). -/
def hsalsa20 (key nonce16 : List Byte) : List Byte :=
  let x := permute (layoutWords key (load32le nonce16 0) (load32le nonce16 4) (load32le nonce16 8) (load32le nonce16 12))
  Config.hsOut.flatMap fun i => store32le x[i]

/-- HSALSA (R141, R142). -/
def execHsalsa (key nonce : List Byte) (s : State) : Host.Outcome State Fault Refusal :=
  if key.length ≠ Config.keyBytes ∨ nonce.length ≠ Config.hsalsaNonce then .next (raise .invalidArgument Opcode.hsalsa.byte s)
  else .next (respond .hsalsa (hsalsa20 key nonce) s)

end Sys2Proof.Machine
end

