-- ==== Sys2Proof/Machine/Context.lean ====
section
/-! DEFINITION. The cipher context (41_cipher_context.md): INIT, block generation, CRYPT, DESTROY, STATUS. -/

namespace Sys2Proof.Machine

/-- The three layouts of `S[6..9]` (R23). -/
inductive Layout where
  | n8 | n12 | n16
deriving DecidableEq, Repr

/-- The `MODE` that records a layout (R23, R27). -/
def Layout.mode : Layout → Mode
  | .n8 => .n8
  | .n12 => .n12
  | .n16 => .n16

/-- The layout of an effective nonce of this length; none for a length INIT rejects (R110, R112). -/
def layoutOf (length : Nat) : Option Layout :=
  if length = Config.nonceN8 then some .n8
  else if length = Config.nonceN12 then some .n12
  else if length = Config.nonceN16 then some .n16
  else none

/-- `counter_lo = counter[31:0]` (R23). -/
def counterLo (counter : BitVec 64) : Word := counter.extractLsb' 0 32

/-- `counter_hi = counter[63:32]` (R23). -/
def counterHi (counter : BitVec 64) : Word := counter.extractLsb' 32 32

/-- The half of the counter operand a 12-byte-nonce context stores (R23, D25). -/
def n12Counter (counter : BitVec 64) : Word :=
  match Config.n12CtrHalf with
  | .hi => counterHi counter
  | .lo => counterLo counter

/-- `S` as a successful INIT leaves it: effective key `k`, effective nonce `n` (R23, R110). -/
def initWords (layout : Layout) (k n : List Byte) (counter : BitVec 64) : Block :=
  match layout with
  | .n8 => layoutWords k (load32le n 0) (load32le n 4) (counterLo counter) (counterHi counter)
  | .n12 => layoutWords k (load32le n 0) (load32le n 4) (load32le n 8) (n12Counter counter)
  | .n16 => layoutWords k (load32le n 0) (load32le n 4) (load32le n 8) (load32le n 12)

/-- The effective key and nonce: a 24-byte nonce is reduced by HSalsa20; the key is its first 32 bytes (R110, R113). -/
def effectiveKeyNonce (key nonce : List Byte) : List Byte × List Byte :=
  let k := slice key 0 Config.keyBytes
  if nonce.length = Config.nonceReduced then
    (hsalsa20 k (slice nonce 0 Config.hsalsaNonce), slice nonce Config.hsalsaNonce Config.nonceReduced)
  else (k, nonce)

/-- INIT (R110 to R114). The nonce is tested once, for the single condition R112 makes of R110's two tests; a length that
passes has a layout once it is reduced. -/
def execInit (counter : BitVec 64) (key nonce : List Byte) (s : State) : Host.Outcome State Fault Refusal :=
  if key.length < Config.keyBytes then .next (raise .invalidKeySize Opcode.init.byte s)
  else if nonce.length ∉ Config.nonceLengths then .next (raise .invalidNonceSize Opcode.init.byte s)
  else
    let kn := effectiveKeyNonce key nonce
    match layoutOf kn.2.length with
    | none => .next (raise .invalidNonceSize Opcode.init.byte s)
    | some layout =>
      .next (respond .init [] (((s.setS (initWords layout kn.1 kn.2 counter)).setMode layout.mode).setPos 0))

/-- The 64-bit counter in `S[8]` (low) and `S[9]` (high), plus 1 modulo 2^64 (R116). -/
def incPair (S : Block) : Block :=
  let S := S.set 8 (add32 S[8] 1)
  if S[8] = 0 then S.set 9 (add32 S[9] 1) else S

/-- The counter words of a layout, plus 1: 64 bits in N8, 32 bits in `S[9]` in N12, none in N16 (R116). It runs in no
other `MODE` (R115). -/
def incLayout (mode : Mode) (S : Block) : Block :=
  match mode with
  | .n8 => incPair S
  | .n12 => S.set 9 (add32 S[9] 1)
  | .n16 => S
  | .idle => S

/-- CTRINC, by `CTR_POLICY` (R116). -/
def ctrInc (mode : Mode) (S : Block) : Block :=
  match Config.ctrPolicy with
  | .perLayout => incLayout mode S
  | .always89 => incPair S

/-- The keystream block of `S`: its permutation plus `S` itself, word by word (R115 steps 1 to 3). -/
def keyBlock (S : Block) : Block :=
  let x := permute S
  Vector.ofFn fun i => add32 x[i] S[i]

/-- BLOCKGEN: the block is made from the counter `S` holds, then the counter is incremented (R115). -/
def blockGen (s : State) : State := (s.setK (keyBlock s.S)).setS (ctrInc s.mode s.S)

/-- The state a byte of CRYPT finds: a new block if none is left (R119 step 1). -/
def refill (s : State) : State := if s.pos = 0 then blockGen s else s

/-- `(POS + 1) mod 64` (R119 step 3). -/
def nextPos (p : BitVec 6) : BitVec 6 := BitVec.ofNat 6 ((p.toNat + 1) % Config.blockBytes)

/-- One byte of CRYPT: output byte and state after (R119 steps 1 to 3). -/
def cryptByte (b : Byte) (s : State) : Byte × State :=
  let s := refill s
  (b ^^^ keyByte s.K s.pos, s.setPos (nextPos s.pos))

/-- The byte loop of CRYPT, in increasing index (R117, R119). -/
def cryptLoop : List Byte → State → List Byte × State
  | [], s => ([], s)
  | b :: bs, s =>
    let r := cryptByte b s
    let t := cryptLoop bs r.2
    (r.1 :: t.1, t.2)

/-- CRYPT (R117 to R120). -/
def execCrypt (olen : Word) (input : List Byte) (s : State) : Host.Outcome State Fault Refusal :=
  if olen.toNat < input.length then .next (raise .outputTooSmall Opcode.crypt.byte s)
  else if s.mode = .idle then .next (raise .notReady Opcode.crypt.byte s)
  else
    let r := cryptLoop input s
    .next (respond .crypt r.1 r.2)

/-- The context zeroised: every word of `S` and `K`, and `POS`, 0 and `MODE` IDLE (R121, R190). -/
def zeroise (s : State) : State := (((s.setS Block.zero).setK Block.zero).setPos 0).setMode .idle

/-- DESTROY (R121). -/
def execDestroy (s : State) : Host.Outcome State Fault Refusal := .next (respond .destroy [] (zeroise s))

/-- STATUS (R123). -/
def execStatus (s : State) : Host.Outcome State Fault Refusal :=
  .next (respond .status (store32le (statusWord s.mode s.pos)) s)

end Sys2Proof.Machine
end

