-- ==== Sys2Proof/Machine/Dispatch.lean ====
section
/-! DEFINITION. One arm per command (30_encoding.md R71). -/

namespace Sys2Proof.Machine

/-- The meaning of a command whose whole packet has been removed from the command stream (R62 step 5). -/
def exec (i : Instr) (s : State) : Host.Outcome State Fault Refusal :=
  match i with
  | .qr a b c d x => Sys2Proof.Machine.execQr a b c d x s
  | .permute x => Sys2Proof.Machine.execPermute x s
  | .hsalsa key nonce => Sys2Proof.Machine.execHsalsa key nonce s
  | .init counter key nonce => Sys2Proof.Machine.execInit counter key nonce s
  | .crypt olen input => Sys2Proof.Machine.execCrypt olen input s
  | .destroy => Sys2Proof.Machine.execDestroy s
  | .status => Sys2Proof.Machine.execStatus s

end Sys2Proof.Machine
end

