-- ==== Sys2Proof/Machine/Step.lean ====
section
/-! DEFINITION. One step of the unit: hold, answer an illegal header, or remove a whole packet and execute it
(20_memory.md R42, R43; 30_encoding.md R62). -/

namespace Sys2Proof.Machine

/-- One step of the unit. -/
def step (s : State) : Host.Outcome State Fault Refusal :=
  match decode s.cmd with
  | .hold => .next (hold s)
  | .illegal hw rest => .next (illegalCommand hw (s.setCmd rest))
  | .packet i rest => exec i (s.setCmd rest)

/-- The packet of a word of spec/opcode_table.json at the front of the command stream, where the next step reads. -/
def State.withFetchWord (s : State) (nbits w : Nat) : State := s.setCmd (tablePacket nbits w ++ s.cmd)

end Sys2Proof.Machine
end

