-- ==== Sys2Proof/Machine/HostMoves.lean ====
section
/-! DEFINITION. What the outside world can do to the unit (20_memory.md R57, 70_reset_and_hazards.md R180): append bytes
to the command stream, take bytes from the response stream, reset. A move stands between two steps. -/

namespace Sys2Proof.Machine

/-- A move of the host. -/
inductive HostMove where
  /-- Append bytes to the command stream (R40). -/
  | append (bytes : List Byte)
  /-- Remove up to `n` bytes from the front of the response stream (R41). -/
  | drain (n : Nat)
  /-- The reset event; power-up is one (R180). -/
  | reset
deriving DecidableEq, Repr

/-- The host appends to the command stream (R40). -/
def State.append (s : State) (bytes : List Byte) : State := s.setCmd (s.cmd ++ bytes)

/-- The host removes responses (R41). -/
def State.drain (s : State) (n : Nat) : State := { s with rsp := s.rsp.drop n }

/-- Reset: the four objects at their reset values, both streams empty, the decoder at a packet boundary (R180). -/
def resetEvent (_ : State) : State := State.reset

/-- The state after a move of the host. -/
def HostMove.apply : HostMove → State → State
  | .append bytes, s => s.append bytes
  | .drain n, s => s.drain n
  | .reset, s => resetEvent s

end Sys2Proof.Machine
end

