-- ==== Sys2Proof/Safety.lean ====
section
/-! DEFINITION. The terms statements about the unit are made in: the invariants of 10_state.md R33, the runs of whole
packets (20_memory.md R51), the states a run with host moves can reach, the closed form of the keystream
(41_cipher_context.md R124) and the status a command is answered with (60_exceptions.md R158, R159). -/

namespace Sys2Proof

/-- The operands of an INIT that succeeds (R113). -/
def initAccepted (key nonce : List Byte) : Prop :=
  32 ≤ key.length ∧ (nonce.length = 8 ∨ nonce.length = 12 ∨ nonce.length = 16 ∨ nonce.length = 24)

/-- The command writes the context's mode: DESTROY, or an INIT that succeeds (R166). -/
def Instr.setsMode : Instr → Prop
  | .qr _ _ _ _ _ => False
  | .permute _ => False
  | .hsalsa _ _ => False
  | .init _ key nonce => initAccepted key nonce
  | .crypt _ _ => False
  | .destroy => True
  | .status => False

/-- The opcode byte of a command (R71). -/
def Instr.opcodeByte : Instr → Byte
  | .qr _ _ _ _ _ => 0x01
  | .permute _ => 0x02
  | .hsalsa _ _ => 0x03
  | .init _ _ _ => 0x10
  | .crypt _ _ => 0x11
  | .destroy => 0x12
  | .status => 0x13

/-- The body length of a response with status 0x00 (R75). -/
def Instr.successBodyBytes : Instr → Nat
  | .qr _ _ _ _ _ => 64
  | .permute _ => 64
  | .hsalsa _ _ => 32
  | .init _ _ _ => 0
  | .crypt _ input => input.length
  | .destroy => 0
  | .status => 4

end Sys2Proof

namespace Sys2Proof.Machine

/-- `s` and `t` agree on the four architectural objects `S`, `K`, `POS`, `MODE` (10_state.md section 1). -/
def State.sameContext (s t : State) : Prop := t.S = s.S ∧ t.K = s.K ∧ t.pos = s.pos ∧ t.mode = s.mode

/-- The constant words are in place (R22, R33 item 2). -/
def constantsHeld (S : Block) : Prop :=
  S[0] = 0x61707865 ∧ S[5] = 0x3320646e ∧ S[10] = 0x79622d32 ∧ S[15] = 0x6b206574

/-- The invariants that hold between commands (R33 items 1, 2 and 5; item 4 is the type of `pos`). -/
structure State.Inv (s : State) : Prop where
  /-- In IDLE nothing of a context is left (item 1). -/
  idleClear : s.mode = .idle → s.S = Block.zero ∧ s.K = Block.zero ∧ s.pos = 0
  /-- A live context has its constant words (item 2). -/
  constants : s.mode ≠ .idle → constantsHeld s.S
  /-- A partly used block is the block of `S` as it was one increment ago (item 5). -/
  blockCurrent : s.mode ≠ .idle → s.pos ≠ 0 → ∃ P : Block, s.S = ctrInc s.mode P ∧ s.K = keyBlock P

/-- The states a unit can be in: after reset, after a step, after a move of the host (R57). -/
inductive Reachable : State → Prop where
  | reset : Reachable State.reset
  | step {s t : State} : Reachable s → step s = .next t → Reachable t
  | host {s : State} (m : HostMove) : Reachable s → Reachable (m.apply s)

/-- The per-command rules applied to a sequence of commands, one after the other (R51 item 1). -/
def runCommands : List Instr → State → Host.Outcome State Fault Refusal
  | [], s => .next s
  | i :: is, s =>
    match exec i s with
    | .next t => runCommands is t
    | .fault r => .fault r
    | .refused r => .refused r

/-- The status code of the answer to a command, from its lengths and `MODE`, by the table of R158 in the order of
R159. -/
def expectedStatus (mode : Mode) : Instr → Byte
  | .qr _ _ _ _ _ => 0x00
  | .permute _ => 0x00
  | .hsalsa key nonce => if key.length = 32 ∧ nonce.length = 16 then 0x00 else 0x04
  | .init _ key nonce =>
    if key.length < 32 then 0x01
    else if nonce.length = 8 ∨ nonce.length = 12 ∨ nonce.length = 16 ∨ nonce.length = 24 then 0x00 else 0x02
  | .crypt olen input =>
    if olen.toNat < input.length then 0x03 else if mode = .idle then 0x05 else 0x00
  | .destroy => 0x00
  | .status => 0x00

/-- `S0` with its counter words advanced `j` times, in closed form (R124). -/
def ctrAdvance (mode : Mode) (j : Nat) (S0 : Block) : Block :=
  match mode with
  | .n8 =>
    let c := S0[8].toNat + 0x100000000 * S0[9].toNat + j
    (S0.set 8 (BitVec.ofNat 32 c)).set 9 (BitVec.ofNat 32 (c / 0x100000000))
  | .n12 => S0.set 9 (BitVec.ofNat 32 (S0[9].toNat + j))
  | .n16 => S0
  | .idle => S0

/-- The `m`-th keystream byte of a context whose `S` was `S0` right after INIT (R124). -/
def streamByte (mode : Mode) (S0 : Block) (m : Nat) : Byte :=
  (bytesLe (keyBlock (ctrAdvance mode (m / 64) S0))).getD (m % 64) 0

/-- `m` keystream bytes have been consumed since `S` was `S0` (R124). -/
structure State.atStream (s : State) (mode : Mode) (S0 : Block) (m : Nat) : Prop where
  mode_eq : s.mode = mode
  S_eq : s.S = ctrAdvance mode ((m + 63) / 64) S0
  pos_eq : s.pos.toNat = m % 64
  K_eq : m % 64 ≠ 0 → s.K = keyBlock (ctrAdvance mode (m / 64) S0)

/-- Byte `i` of the keystream a CRYPT finds in `s`: what is left of `K`, then the blocks it generates (R119). -/
def nextKeyByte (s : State) (i : Nat) : Byte :=
  let j := s.pos.toNat + i
  if s.pos = 0 then (bytesLe (keyBlock ((ctrInc s.mode)^[j / 64] s.S))).getD (j % 64) 0
  else if j < 64 then (bytesLe s.K).getD j 0
  else (bytesLe (keyBlock ((ctrInc s.mode)^[j / 64 - 1] s.S))).getD (j % 64) 0

/-- The number of blocks a CRYPT of `n` bytes generates from position `p`: one for each byte that finds `POS = 0`
(R119). -/
def blocksGenerated (p n : Nat) : Nat := ((List.range n).filter fun i => (p + i) % 64 = 0).length

end Sys2Proof.Machine
end

