-- ==== Sys2Proof/Certificates/Slice0/Obligations.lean ====
section
/-! DEFINITION. The statements about the Salsa20 unit. Each docstring says which rule or section of spec/ it formalises;
the statements marked "the spec's inference" rest on a sentence the spec itself derives from other rules. -/

open Sys2Proof Sys2Proof.Machine

/-! ### Words and bytes -/

/-- 00_scope.md R9: the value of `rotl32` and where each bit goes, at the four amounts the unit uses. -/
def Obligations.RotationMovesEveryBitLeft : Prop :=
  ∀ (w : Word) (n : Nat), n = 7 ∨ n = 9 ∨ n = 13 ∨ n = 18 →
    (rotl32 w n).toNat = (w.toNat * 2 ^ n) % 2 ^ 32 + w.toNat / 2 ^ (32 - n)
    ∧ ∀ i : Nat, i < 32 → (rotl32 w n).getLsbD ((i + n) % 32) = w.getLsbD i

/-- 00_scope.md section 5.1 and 20_memory.md section 2: the little-endian conversions, for the sizes the unit uses. -/
def Obligations.ByteOrderIsLittleEndian : Prop :=
  (∀ (b : List Byte) (o : Nat) (h : o + 4 ≤ b.length),
    (load32le b o).toNat = b[o].toNat + 2 ^ 8 * b[o + 1].toNat + 2 ^ 16 * b[o + 2].toNat + 2 ^ 24 * b[o + 3].toNat)
  ∧ (∀ w : Word, (store32le w).map BitVec.toNat
      = [w.toNat % 256, w.toNat / 2 ^ 8 % 256, w.toNat / 2 ^ 16 % 256, w.toNat / 2 ^ 24 % 256])
  ∧ (∀ (b : List Byte) (o : Nat), o + 8 ≤ b.length →
      (load64le b o).toNat = (load32le b o).toNat + 2 ^ 32 * (load32le b (o + 4)).toNat)
  ∧ (∀ (b : List Byte) (i : Fin 16), b.length = 64 → (wordsLe b)[i] = load32le b (4 * i.val))
  ∧ (∀ x : Block, bytesLe x = (List.finRange 16).flatMap fun i => store32le x[i])

/-! ### The permutation core -/

/-- 40_permutation.md R90: the four statements, in order, each on the array the one before it left, for any four indices
(repeated ones included), with every word a statement does not name left as it was. -/
def Obligations.QuarterRoundRunsItsFourStatements : Prop :=
  ∀ (x : Block) (a b c d : Fin 16), ∃ x1 x2 x3 : Block,
    (∀ i : Fin 16, x1[i] = if i = b then x[b] ^^^ rotl32 (add32 x[a] x[d]) 7 else x[i])
    ∧ (∀ i : Fin 16, x2[i] = if i = c then x1[c] ^^^ rotl32 (add32 x1[b] x1[a]) 9 else x1[i])
    ∧ (∀ i : Fin 16, x3[i] = if i = d then x2[d] ^^^ rotl32 (add32 x2[c] x2[b]) 13 else x2[i])
    ∧ (∀ i : Fin 16,
        (quarterRound x a b c d)[i] = if i = a then x3[a] ^^^ rotl32 (add32 x3[d] x3[c]) 18 else x3[i])

/-- 40_permutation.md section 1, the paragraph "Written without assignment": the quarter-round of four distinct indices
in terms of the old values, and the twelve other words. -/
def Obligations.QuarterRoundOfDistinctIndices : Prop :=
  ∀ (x : Block) (a b c d : Fin 16), [a, b, c, d].Nodup →
    let zb := x[b] ^^^ rotl32 (add32 x[a] x[d]) 7
    let zc := x[c] ^^^ rotl32 (add32 zb x[a]) 9
    let zd := x[d] ^^^ rotl32 (add32 zc zb) 13
    let za := x[a] ^^^ rotl32 (add32 zd zc) 18
    let y := quarterRound x a b c d
    y[a] = za ∧ y[b] = zb ∧ y[c] = zc ∧ y[d] = zd
    ∧ ∀ i : Fin 16, i ∉ [a, b, c, d] → y[i] = x[i]

/-- 40_permutation.md R93 and R95: the double round is the eight quarter-rounds on these quadruples in this order; the
permutation is ten double rounds. -/
def Obligations.PermutationIsTenDoubleRounds : Prop :=
  (∀ x : Block, dround x =
    ([(0, 4, 8, 12), (5, 9, 13, 1), (10, 14, 2, 6), (15, 3, 7, 11), (0, 1, 2, 3), (5, 6, 7, 4), (10, 11, 8, 9),
      (15, 12, 13, 14)] : List (Fin 16 × Fin 16 × Fin 16 × Fin 16)).foldl
        (fun y q => quarterRound y q.1 q.2.1 q.2.2.1 q.2.2.2) x)
  ∧ ∀ x : Block, permute x = dround^[10] x

/-- 40_permutation.md section 2 (the spec's inference): quarter-rounds on quadruples without a common word give the same
result in either order, which is why a column pass and a row pass may each run in parallel. -/
def Obligations.DisjointQuarterRoundsCommute : Prop :=
  ∀ (x : Block) (a b c d e f g h : Fin 16), (∀ i ∈ [a, b, c, d], i ∉ [e, f, g, h]) →
    quarterRound (quarterRound x a b c d) e f g h = quarterRound (quarterRound x e f g h) a b c d

/-- 40_permutation.md section 3 (the spec's inference): the quarter-round of distinct indices, the double round and the
permutation are bijections on 16-word arrays. -/
def Obligations.PermutationIsBijective : Prop :=
  (∀ a b c d : Fin 16, [a, b, c, d].Nodup → Function.Bijective fun x : Block => quarterRound x a b c d)
  ∧ Function.Bijective dround ∧ Function.Bijective permute

/-- 40_permutation.md R91: QR's packet, of 68 bytes; in every state, for any indices, QR answers with the quarter-round of
its operand and touches nothing but the response stream; the all-zero array stays all zero. -/
def Obligations.QrAnswersTheQuarterRound : Prop :=
  (∀ (a b c d : Fin 16) (x : Block) (s : State),
    exec (.qr a b c d x) s
      = .next { s with rsp := s.rsp ++ ([0x00, 0x01, 0x00, 0x00] ++ bytesLe (quarterRound x a b c d)) }
    ∧ encode (.qr a b c d x)
      = [0x01, BitVec.ofNat 8 (16 * b.val + a.val), BitVec.ofNat 8 (16 * d.val + c.val), 0x00] ++ bytesLe x
    ∧ (encode (.qr a b c d x)).length = 68)
  ∧ ∀ a b c d : Fin 16, quarterRound Block.zero a b c d = Block.zero

/-- 40_permutation.md section 3, the command PERMUTE: its packet, of 68 bytes; in every state PERMUTE answers with the
permutation of its operand and touches nothing but the response stream. That the all-zero array stays all zero is the
spec's inference, so marked there. -/
def Obligations.PermuteAnswersThePermutation : Prop :=
  (∀ (x : Block) (s : State),
    exec (.permute x) s = .next { s with rsp := s.rsp ++ ([0x00, 0x02, 0x00, 0x00] ++ bytesLe (permute x)) }
    ∧ encode (.permute x) = [0x02, 0x00, 0x00, 0x00] ++ bytesLe x ∧ (encode (.permute x)).length = 68)
  ∧ permute Block.zero = Block.zero

/-! ### Encoding and framing -/

/-- 30_encoding.md section 4: no header word selects two rows of the opcode map. -/
def Obligations.OpcodeMapRowsAreDisjoint : Prop :=
  ∀ (hw : Word) (r r' : OpcodeRow), r ∈ opcodeMap → r' ∈ opcodeMap → r.selects hw → r'.selects hw → r = r'

/-- 30_encoding.md sections 2 and 3: each packet form, written out byte by byte, decodes to its command with every operand
assembled from the place the tables give it, whatever bytes follow. -/
def Obligations.EachPacketFormDecodesToItsCommand : Prop :=
  (∀ (a b c d : Fin 16) (body rest : List Byte), body.length = 64 →
    decode ([0x01, BitVec.ofNat 8 (16 * b.val + a.val), BitVec.ofNat 8 (16 * d.val + c.val), 0x00] ++ body ++ rest)
      = .packet (.qr a b c d (Vector.ofFn fun i => load32le body (4 * i.val))) rest)
  ∧ (∀ body rest : List Byte, body.length = 64 →
    decode ([0x02, 0x00, 0x00, 0x00] ++ body ++ rest)
      = .packet (.permute (Vector.ofFn fun i => load32le body (4 * i.val))) rest)
  ∧ (∀ key nonce rest : List Byte, key.length ≤ 255 → nonce.length ≤ 255 →
    decode ([0x03, BitVec.ofNat 8 key.length, BitVec.ofNat 8 nonce.length, 0x00] ++ key ++ nonce ++ rest)
      = .packet (.hsalsa key nonce) rest)
  ∧ (∀ cb key nonce rest : List Byte, cb.length = 8 → key.length ≤ 255 → nonce.length ≤ 255 →
    decode ([0x10, BitVec.ofNat 8 key.length, BitVec.ofNat 8 nonce.length, 0x00] ++ cb ++ key ++ nonce ++ rest)
      = .packet (.init (load64le cb 0) key nonce) rest)
  ∧ (∀ ilen olen input rest : List Byte, ilen.length = 4 → olen.length = 4 →
    input.length = (load32le ilen 0).toNat →
    decode ([0x11, 0x00, 0x00, 0x00] ++ ilen ++ olen ++ input ++ rest)
      = .packet (.crypt (load32le olen 0) input) rest)
  ∧ (∀ rest : List Byte, decode ([0x12, 0x00, 0x00, 0x00] ++ rest) = .packet .destroy rest)
  ∧ (∀ rest : List Byte, decode ([0x13, 0x00, 0x00, 0x00] ++ rest) = .packet .status rest)

/-- 30_encoding.md section 4, 95_test_vectors.md section 7: a few header words of the spec, with bodies of zeros, decode
to the commands they stand for. A check of words, not of the decoder as a whole. -/
def Obligations.HeaderWordsOfTheSpecDecode : Prop :=
  decodeTableWord 32 0x00edcf01 = some (.qr 15 12 13 14 Block.zero)
  ∧ decodeTableWord 32 0x00000002 = some (.permute Block.zero)
  ∧ decodeTableWord 32 0x00102003 = some (.hsalsa (List.replicate 32 0) (List.replicate 16 0))
  ∧ decodeTableWord 32 0x00082010 = some (.init 0 (List.replicate 32 0) (List.replicate 8 0))
  ∧ decodeTableWord 32 0x00000011 = some (.crypt 0 [])
  ∧ decodeTableWord 32 0x00000012 = some .destroy
  ∧ decodeTableWord 32 0x00000013 = some .status
  ∧ decodeTableWord 32 0x00000000 = none

/-- 30_encoding.md sections 2 to 4: decoding the packet of a well-formed command, with any bytes after it, gives the
command back with every operand at every value the encoding admits, and leaves those bytes. -/
def Obligations.DecodeOfEncodeIsTheCommand : Prop :=
  ∀ (i : Instr) (rest : List Byte), i.wf = true → decode (encode i ++ rest) = .packet i rest

/-- 30_encoding.md sections 2 to 4, the other direction: a decoded command is well-formed, and the bytes taken off the
stream are exactly its packet. No command has two encodings. -/
def Obligations.EncodeOfDecodeIsThePacket : Prop :=
  ∀ (bytes rest : List Byte) (i : Instr), decode bytes = .packet i rest → i.wf = true ∧ bytes = encode i ++ rest

/-- 60_exceptions.md R157, 30_encoding.md R72: which headers are illegal, and what the unit does with one. -/
def Obligations.IllegalHeadersAreAnswered : Prop :=
  ∀ (h0 h1 h2 h3 : Byte) (rest : List Byte) (s : State), s.cmd = h0 :: h1 :: h2 :: h3 :: rest →
    let illegal := h0 ∉ ([0x01, 0x02, 0x03, 0x10, 0x11, 0x12, 0x13] : List Byte) ∨ h3 ≠ 0
      ∨ (h0 ∈ ([0x02, 0x11, 0x12, 0x13] : List Byte) ∧ (h1 ≠ 0 ∨ h2 ≠ 0))
    ((∃ hw r, decode s.cmd = .illegal hw r) ↔ illegal)
    ∧ (illegal → step s = .next { s with cmd := rest, rsp := s.rsp ++ [0x06, h0, 0x00, 0x00] })

/-- 20_memory.md R42, 30_encoding.md R62: where the front of the command stream is the packet of a well-formed command,
the step removes exactly that packet and is the command's own meaning on what is left. -/
def Obligations.StepRunsTheDecodedCommand : Prop :=
  ∀ (s : State) (i : Instr) (rest : List Byte), i.wf = true → s.cmd = encode i ++ rest →
    decode s.cmd = .packet i rest ∧ step s = exec i (s.setCmd rest)

/-- 20_memory.md R43: on fewer bytes than the packet at the front needs, the unit changes nothing and emits nothing.
That the hold is a step which changes nothing is the model's choice (log entry 2). -/
def Obligations.PartialPacketHolds : Prop :=
  (∀ s : State, decode s.cmd = .hold → step s = .next s)
  ∧ (∀ s : State, s.cmd.length < 4 → step s = .next s)
  ∧ ∀ (i : Instr) (s : State) (k : Nat), i.wf = true → k < (encode i).length → s.cmd = (encode i).take k →
      step s = .next s

/-- 20_memory.md section 1: bytes the host appends later change neither how the packet at the front is decoded nor what
it does. -/
def Obligations.LaterBytesDoNotChangeTheFrontPacket : Prop :=
  (∀ (bytes more rest : List Byte) (i : Instr), decode bytes = .packet i rest →
    decode (bytes ++ more) = .packet i (rest ++ more))
  ∧ (∀ (bytes more rest : List Byte) (hw : Word), decode bytes = .illegal hw rest →
    decode (bytes ++ more) = .illegal hw (rest ++ more))
  ∧ ∀ (s t : State) (more : List Byte), decode s.cmd ≠ .hold → step s = .next t →
      step (s.append more) = .next (t.append more)

/-- 20_memory.md section 4 (the spec's inference): the state after a sequence of whole packets is the fold of the
per-command rules over that sequence, each packet taking one step. -/
def Obligations.RunOfPacketsIsTheFoldOfTheirCommands : Prop :=
  ∀ (is : List Instr) (s : State) (rest : List Byte), (∀ i ∈ is, i.wf = true) →
    ∃ t, runCommands is s = .next t
      ∧ Host.Core.run Sys2Proof.core is.length (s.setCmd (is.flatMap encode ++ rest)) = .next (t.setCmd rest)

/-- 20_memory.md section 1, 60_exceptions.md sections 1 and 5: no step ends in a fault or a refusal. That a step answers
next also where the unit holds, and has no enabled step by the spec, is the model's choice (log entry 2); that an error
is an answer and no fault is the model's reading (log entry 15). -/
def Obligations.EveryStepAnswersNext : Prop :=
  ∀ s : State, ∃ t, step s = .next t

/-! ### Responses and errors -/

/-- 30_encoding.md R74: every whole packet, legal or not, produces exactly one response: the status 60_exceptions.md R158
gives it, the opcode echo, two zero bytes, and a body that is empty when the status is not 0. -/
def Obligations.OneResponsePerPacket : Prop :=
  ∀ (s : State) (rest : List Byte), ((∃ i, decode s.cmd = .packet i rest) ∨ ∃ hw, decode s.cmd = .illegal hw rest) →
    ∃ (t : State) (st : Byte) (body : List Byte), step s = .next t ∧ t.cmd = rest
      ∧ t.rsp = s.rsp ++ (st :: byteAt s.cmd 0 :: 0x00 :: 0x00 :: body)
      ∧ (∀ i, decode s.cmd = .packet i rest → st = expectedStatus s.mode i)
      ∧ (∀ hw, decode s.cmd = .illegal hw rest → st = 0x06)
      ∧ st.toNat ≤ 6 ∧ (st ≠ 0 → body = [] ∧ s.sameContext t)

/-- 30_encoding.md section 6: the length of the response body on success, by command, and 4 bytes in all on an error. -/
def Obligations.ResponseLengthsFollowTheTable : Prop :=
  ∀ (i : Instr) (s : State), ∃ (t : State) (r : List Byte), exec i s = .next t ∧ t.rsp = s.rsp ++ r
    ∧ (expectedStatus s.mode i = 0 → r.length = 4 + i.successBodyBytes)
    ∧ (expectedStatus s.mode i ≠ 0 → r.length = 4)

/-- 60_exceptions.md R158 and R159: the status code of every command, from its lengths and `MODE` alone, in the order of
priority of R159; an illegal header is IllegalCommand whatever else holds. -/
def Obligations.StatusCodesFollowTheErrorTable : Prop :=
  (∀ (i : Instr) (s : State), ∃ (t : State) (body : List Byte), exec i s = .next t
    ∧ t.rsp = s.rsp ++ (expectedStatus s.mode i :: i.opcodeByte :: 0x00 :: 0x00 :: body))
  ∧ ∀ (s : State) (hw : Word) (rest : List Byte), decode s.cmd = .illegal hw rest →
      ∃ t : State, step s = .next t ∧ t.rsp = s.rsp ++ [0x06, byteAt s.cmd 0, 0x00, 0x00]

/-- 60_exceptions.md R150: an error, of a command or of a header, takes the packet off the command stream, appends four
bytes to the response stream, and does nothing else; the next step reads the next packet. -/
def Obligations.ErrorsOnlyAppendTheirResponse : Prop :=
  (∀ (i : Instr) (s : State), expectedStatus s.mode i ≠ 0 →
    exec i s = .next { s with rsp := s.rsp ++ [expectedStatus s.mode i, i.opcodeByte, 0x00, 0x00] })
  ∧ (∀ (i : Instr) (s : State) (rest : List Byte), decode s.cmd = .packet i rest → expectedStatus s.mode i ≠ 0 →
    step s = .next { s with cmd := rest, rsp := s.rsp ++ [expectedStatus s.mode i, byteAt s.cmd 0, 0x00, 0x00] })
  ∧ ∀ (s : State) (hw : Word) (rest : List Byte), decode s.cmd = .illegal hw rest →
    step s = .next { s with cmd := rest, rsp := s.rsp ++ [0x06, byteAt s.cmd 0, 0x00, 0x00] }

/-! ### HSALSA -/

/-- 42_hsalsa20.md R140: the array HSalsa20 lays out and the eight words it returns; and HSALSA of operands of the two
right sizes answers with them in every state and touches nothing but the response stream. -/
def Obligations.HsalsaAnswersTheDerivedKey : Prop :=
  ∀ (key nonce : List Byte) (s : State), key.length = 32 → nonce.length = 16 →
    ∃ x : Block, constantsHeld x
      ∧ (∀ i : Fin 4, x[1 + i.val] = load32le key (4 * i.val) ∧ x[11 + i.val] = load32le key (16 + 4 * i.val)
          ∧ x[6 + i.val] = load32le nonce (4 * i.val))
      ∧ hsalsa20 key nonce
          = ([0, 5, 10, 15, 6, 7, 8, 9] : List (Fin 16)).flatMap (fun i => store32le (permute x)[i])
      ∧ exec (.hsalsa key nonce) s
          = .next { s with rsp := s.rsp ++ ([0x00, 0x03, 0x00, 0x00] ++ hsalsa20 key nonce) }

/-- 42_hsalsa20.md R142: HSALSA with any other size is InvalidArgument, status 0x04, and nothing else happens. -/
def Obligations.HsalsaRejectsOtherSizes : Prop :=
  ∀ (key nonce : List Byte) (s : State), key.length ≠ 32 ∨ nonce.length ≠ 16 →
    exec (.hsalsa key nonce) s = .next { s with rsp := s.rsp ++ [0x04, 0x03, 0x00, 0x00] }

/-! ### INIT -/

/-- 41_cipher_context.md R111: a key shorter than 32 bytes is InvalidKeySize, whatever the nonce, and no state is written;
a longer key never is. -/
def Obligations.InitRejectsAShortKey : Prop :=
  ∀ (c : BitVec 64) (key nonce : List Byte) (s : State),
    (key.length < 32 → exec (.init c key nonce) s = .next { s with rsp := s.rsp ++ [0x01, 0x10, 0x00, 0x00] })
    ∧ (32 ≤ key.length → ∀ (t : State) (body : List Byte), exec (.init c key nonce) s = .next t →
        t.rsp ≠ s.rsp ++ (0x01 :: body))

/-- 41_cipher_context.md R112: with a key of 32 bytes or more, a nonce that is none of 8, 12, 16, 24 bytes is
InvalidNonceSize, and no state is written. -/
def Obligations.InitRejectsOtherNonceLengths : Prop :=
  ∀ (c : BitVec 64) (key nonce : List Byte) (s : State), 32 ≤ key.length → nonce.length ∉ [8, 12, 16, 24] →
    exec (.init c key nonce) s = .next { s with rsp := s.rsp ++ [0x02, 0x10, 0x00, 0x00] }

/-- 41_cipher_context.md R113 with 10_state.md R21 to R23: an INIT that succeeds writes all of `S`, `POS` and `MODE` as
the tables say, and nothing else; `K` keeps its old block. For a 12-byte nonce `S[9]` takes the high half of the
counter (90_conflicts.md C8). -/
def Obligations.InitLaysOutTheContext : Prop :=
  ∀ (c : BitVec 64) (key nonce : List Byte) (s : State), initAccepted key nonce →
    let k := if nonce.length = 24 then hsalsa20 (key.take 32) (nonce.take 16) else key.take 32
    let n := if nonce.length = 24 then nonce.drop 16 else nonce
    ∃ t : State, exec (.init c key nonce) s = .next t
      ∧ constantsHeld t.S
      ∧ (∀ i : Fin 4, t.S[1 + i.val] = load32le k (4 * i.val) ∧ t.S[11 + i.val] = load32le k (16 + 4 * i.val))
      ∧ t.S[6] = load32le n 0 ∧ t.S[7] = load32le n 4
      ∧ (n.length = 8 → t.mode = .n8 ∧ t.S[8].toNat = c.toNat % 2 ^ 32 ∧ t.S[9].toNat = c.toNat / 2 ^ 32)
      ∧ (n.length = 12 → t.mode = .n12 ∧ t.S[8] = load32le n 8 ∧ t.S[9].toNat = c.toNat / 2 ^ 32)
      ∧ (n.length = 16 → t.mode = .n16 ∧ t.S[8] = load32le n 8 ∧ t.S[9] = load32le n 12)
      ∧ t.pos = 0 ∧ t.K = s.K ∧ t.cmd = s.cmd ∧ t.rsp = s.rsp ++ [0x00, 0x10, 0x00, 0x00]

/-- 41_cipher_context.md R114: INIT is accepted in every `MODE`, and what it leaves in `S`, `POS`, `MODE` is a function of
its operands alone; the same INIT twice leaves what it leaves once. -/
def Obligations.InitDependsOnItsOperandsAlone : Prop :=
  ∀ (c : BitVec 64) (key nonce : List Byte) (s s' : State), initAccepted key nonce →
    ∃ t t' u : State, exec (.init c key nonce) s = .next t ∧ exec (.init c key nonce) s' = .next t'
      ∧ t.S = t'.S ∧ t.pos = t'.pos ∧ t.mode = t'.mode ∧ t.mode ≠ .idle
      ∧ exec (.init c key nonce) t = .next u ∧ u.S = t.S ∧ u.pos = t.pos ∧ u.mode = t.mode

/-- 42_hsalsa20.md section 3 (the spec's inference): INIT with a 24-byte nonce leaves the same `S`, `POS`, `MODE` as
HSALSA on the first 16 nonce bytes followed by INIT with the derived key and the last 8. -/
def Obligations.XSalsaInitIsHsalsaThenInit : Prop :=
  ∀ (c : BitVec 64) (key nonce : List Byte) (s : State), key.length = 32 → nonce.length = 24 →
    ∃ (t t1 t2 : State) (dk : List Byte), exec (.init c key nonce) s = .next t
      ∧ exec (.hsalsa key (nonce.take 16)) s = .next t1 ∧ t1.rsp = s.rsp ++ ([0x00, 0x03, 0x00, 0x00] ++ dk)
      ∧ exec (.init c dk (nonce.drop 16)) t1 = .next t2
      ∧ t2.S = t.S ∧ t2.pos = t.pos ∧ t2.mode = t.mode

/-! ### Block generation and CRYPT -/

/-- 41_cipher_context.md R116 (`CTR_POLICY = PER_LAYOUT`, 90_conflicts.md C3): what CTRINC does in each layout, and that
it touches no other word. -/
def Obligations.CounterIncrementsByLayout : Prop :=
  ∀ S : Block,
    ((ctrInc .n8 S)[8].toNat + 2 ^ 32 * (ctrInc .n8 S)[9].toNat = (S[8].toNat + 2 ^ 32 * S[9].toNat + 1) % 2 ^ 64
      ∧ (ctrInc .n8 S)[8] = add32 S[8] 1
      ∧ ∀ i : Fin 16, i ≠ 8 → i ≠ 9 → (ctrInc .n8 S)[i] = S[i])
    ∧ ((ctrInc .n12 S)[9].toNat = (S[9].toNat + 1) % 2 ^ 32
      ∧ ∀ i : Fin 16, i ≠ 9 → (ctrInc .n12 S)[i] = S[i])
    ∧ ctrInc .n16 S = S

/-- 41_cipher_context.md R115: BLOCKGEN makes the block from `S` as it was, adds `S` back word by word, then increments
the counter; it writes nothing else. -/
def Obligations.BlockGenerationAddsTheStateBack : Prop :=
  ∀ s : State, s.mode ≠ .idle →
    (∀ i : Fin 16, ((blockGen s).K[i]).toNat = ((permute s.S)[i].toNat + s.S[i].toNat) % 2 ^ 32)
    ∧ (blockGen s).S = ctrInc s.mode s.S ∧ (blockGen s).pos = s.pos ∧ (blockGen s).mode = s.mode
    ∧ (blockGen s).cmd = s.cmd ∧ (blockGen s).rsp = s.rsp
    ∧ ∀ j : BitVec 6, keyByte (blockGen s).K j = (bytesLe (blockGen s).K).getD j.toNat 0

/-- 41_cipher_context.md R118: CRYPT's two refusals, in their order, in every `MODE` and for every input, both before any
state write. -/
def Obligations.CryptRefusals : Prop :=
  ∀ (olen : Word) (input : List Byte) (s : State),
    (olen.toNat < input.length →
      exec (.crypt olen input) s = .next { s with rsp := s.rsp ++ [0x03, 0x11, 0x00, 0x00] })
    ∧ (input.length ≤ olen.toNat → s.mode = .idle →
      exec (.crypt olen input) s = .next { s with rsp := s.rsp ++ [0x05, 0x11, 0x00, 0x00] })

/-- 41_cipher_context.md section 3 (the spec's inference): a CRYPT of no bytes succeeds on a live context and generates
no block. -/
def Obligations.CryptOfNothingGeneratesNothing : Prop :=
  ∀ (olen : Word) (s : State), s.mode ≠ .idle →
    exec (.crypt olen []) s = .next { s with rsp := s.rsp ++ [0x00, 0x11, 0x00, 0x00] }

/-- 41_cipher_context.md R117 and R119: CRYPT's packet and its two refusals; in every state with a context, a CRYPT whose
output fits XORs each byte with the next keystream byte, generates a block for each byte that finds `POS = 0`, leaves
`S`, `K`, `POS` as that many blocks and bytes leave them, and answers with the header of R117 and the output; the number
of blocks is the one R119 gives. -/
def Obligations.CryptXorsTheNextKeystreamBytes : Prop :=
  (∀ (olen : Word) (input : List Byte) (s : State), s.mode ≠ .idle → input.length ≤ olen.toNat →
    let blocks := blocksGenerated s.pos.toNat input.length
    ∃ t : State, exec (.crypt olen input) s = .next t
      ∧ t.rsp = s.rsp ++ ([0x00, 0x11, 0x00, 0x00] ++ input.mapIdx fun i b => b ^^^ nextKeyByte s i)
      ∧ t.pos.toNat = (s.pos.toNat + input.length) % 64
      ∧ t.S = (ctrInc s.mode)^[blocks] s.S
      ∧ t.K = (if blocks = 0 then s.K else keyBlock ((ctrInc s.mode)^[blocks - 1] s.S))
      ∧ t.mode = s.mode ∧ t.cmd = s.cmd)
  ∧ (∀ p n : Nat, p < 64 →
      blocksGenerated p n = if n = 0 then 0 else (n - (64 - p) % 64 + 63) / 64)
  ∧ ∀ (olen : Word) (input : List Byte) (s : State),
      encode (.crypt olen input)
        = [0x11, 0x00, 0x00, 0x00] ++ store32le (BitVec.ofNat 32 input.length) ++ store32le olen ++ input
      ∧ (encode (.crypt olen input)).length = 12 + input.length
      ∧ (olen.toNat < input.length →
        exec (.crypt olen input) s = .next { s with rsp := s.rsp ++ [0x03, 0x11, 0x00, 0x00] })
      ∧ (input.length ≤ olen.toNat → s.mode = .idle →
        exec (.crypt olen input) s = .next { s with rsp := s.rsp ++ [0x05, 0x11, 0x00, 0x00] })

/-- 41_cipher_context.md section 4, item 1 (the spec's inference): two CRYPTs give the bytes and the end state of one on
the joined string. -/
def Obligations.CryptSplitsAnywhere : Prop :=
  ∀ (oa ob oc : Word) (as bs : List Byte) (s : State), s.mode ≠ .idle → as.length ≤ oa.toNat → bs.length ≤ ob.toNat →
    as.length + bs.length ≤ oc.toNat →
    ∃ (t1 t2 t : State) (as' bs' : List Byte), as'.length = as.length ∧ bs'.length = bs.length
      ∧ exec (.crypt oa as) s = .next t1 ∧ t1.rsp = s.rsp ++ ([0x00, 0x11, 0x00, 0x00] ++ as')
      ∧ exec (.crypt ob bs) t1 = .next t2 ∧ t2.rsp = t1.rsp ++ ([0x00, 0x11, 0x00, 0x00] ++ bs')
      ∧ exec (.crypt oc (as ++ bs)) s = .next t ∧ t.rsp = s.rsp ++ ([0x00, 0x11, 0x00, 0x00] ++ (as' ++ bs'))
      ∧ t2.sameContext t

/-- 41_cipher_context.md section 4, item 3 (the spec's inference), 90_conflicts.md C11: INIT, CRYPT, the same INIT, CRYPT
of the answer, gives the data back. -/
def Obligations.CryptUndoesItself : Prop :=
  ∀ (c : BitVec 64) (key nonce data : List Byte) (o1 o2 : Word) (s : State), initAccepted key nonce →
    data.length ≤ o1.toNat → data.length ≤ o2.toNat →
    ∃ (s1 s2 s3 s4 : State) (data' : List Byte), exec (.init c key nonce) s = .next s1
      ∧ exec (.crypt o1 data) s1 = .next s2 ∧ s2.rsp = s1.rsp ++ ([0x00, 0x11, 0x00, 0x00] ++ data')
      ∧ exec (.init c key nonce) s2 = .next s3
      ∧ exec (.crypt o2 data') s3 = .next s4 ∧ s4.rsp = s3.rsp ++ ([0x00, 0x11, 0x00, 0x00] ++ data)

/-- 41_cipher_context.md section 4, item 5 (the spec's inference): the context after a CRYPT depends on the length of the
input, not on its bytes. -/
def Obligations.KeystreamIsIndependentOfTheData : Prop :=
  ∀ (o1 o2 : Word) (d1 d2 : List Byte) (s : State), s.mode ≠ .idle → d1.length = d2.length →
    d1.length ≤ o1.toNat → d2.length ≤ o2.toNat →
    ∃ t1 t2 : State, exec (.crypt o1 d1) s = .next t1 ∧ exec (.crypt o2 d2) s = .next t2 ∧ t1.sameContext t2

/-- 41_cipher_context.md section 4 (the spec's inference): the counter words advanced `j` times by CTRINC have the closed
form the spec gives. -/
def Obligations.AdvancedCounterHasAClosedForm : Prop :=
  ∀ (mode : Mode) (j : Nat) (S0 : Block), mode ≠ .idle → (ctrInc mode)^[j] S0 = ctrAdvance mode j S0

/-- 41_cipher_context.md section 4 (the spec's inference): after an INIT that succeeds the stream stands at byte 0; a
CRYPT at stream byte `m` returns its data XORed with stream bytes `m`, `m + 1`, ... of the closed form, and leaves the
stream at byte `m + ILEN`, with `POS` and `S` as the closed form says. -/
def Obligations.KeystreamHasAClosedForm : Prop :=
  (∀ (c : BitVec 64) (key nonce : List Byte) (s : State), initAccepted key nonce →
    ∃ t : State, exec (.init c key nonce) s = .next t ∧ t.mode ≠ .idle ∧ t.atStream t.mode t.S 0)
  ∧ ∀ (mode : Mode) (S0 : Block) (m : Nat) (olen : Word) (input : List Byte) (s : State), mode ≠ .idle →
      s.atStream mode S0 m → input.length ≤ olen.toNat →
      ∃ t : State, exec (.crypt olen input) s = .next t
        ∧ t.rsp = s.rsp ++ ([0x00, 0x11, 0x00, 0x00] ++ input.mapIdx fun i b => b ^^^ streamByte mode S0 (m + i))
        ∧ t.atStream mode S0 (m + input.length)

/-! ### DESTROY, STATUS, reset -/

/-- 41_cipher_context.md R121: DESTROY's packet; in every `MODE` it leaves the reset context and answers OK, may be
repeated, and leaves CRYPT refused; no step but a DESTROY ends a context. -/
def Obligations.DestroyZeroisesTheContext : Prop :=
  encode .destroy = [0x12, 0x00, 0x00, 0x00]
  ∧ (∀ u v : State, u.mode ≠ .idle → step u = .next v → (∀ rest, decode u.cmd ≠ .packet .destroy rest) →
    v.mode ≠ .idle)
  ∧ ∀ s : State, ∃ t : State, exec .destroy s = .next t
    ∧ (∀ i : Fin 16, t.S[i] = 0 ∧ t.K[i] = 0) ∧ t.pos = 0 ∧ t.mode = .idle
    ∧ t.cmd = s.cmd ∧ t.rsp = s.rsp ++ [0x00, 0x12, 0x00, 0x00]
    ∧ State.reset.sameContext t
    ∧ exec .destroy t = .next { t with rsp := t.rsp ++ [0x00, 0x12, 0x00, 0x00] }
    ∧ ∀ (olen : Word) (input : List Byte), input.length ≤ olen.toNat →
        exec (.crypt olen input) t = .next { t with rsp := t.rsp ++ [0x05, 0x11, 0x00, 0x00] }

/-- 41_cipher_context.md R123 with 10_state.md R30: STATUS's packet; STATUS answers `SW` in every `MODE` and touches nothing but the
response stream; `SW` has `MODE` in its lowest byte, `POS` in the next, and two zero bytes above. -/
def Obligations.StatusReportsModeAndPosition : Prop :=
  encode .status = [0x13, 0x00, 0x00, 0x00]
  ∧ ∀ s : State,
    let code : Byte := match s.mode with | .idle => 0 | .n8 => 1 | .n12 => 2 | .n16 => 3
    exec .status s
      = .next { s with rsp := s.rsp ++ [0x00, 0x13, 0x00, 0x00, code, BitVec.ofNat 8 s.pos.toNat, 0x00, 0x00] }
    ∧ (statusWord s.mode s.pos).toNat = code.toNat + 256 * s.pos.toNat

/-- 10_state.md R35 and 70_reset_and_hazards.md R180: after reset every word is 0, `POS` is 0, `MODE` is IDLE and so `SW`
is 0, the state DESTROY leaves; both streams are empty; the reset event leaves this whatever the state before it, and
the first byte appended next is the first byte of a header. -/
def Obligations.ResetLeavesEveryObjectCleared : Prop :=
  (∀ i : Fin 16, State.reset.S[i] = 0 ∧ State.reset.K[i] = 0) ∧ State.reset.pos = 0 ∧ State.reset.mode = .idle
  ∧ statusWord State.reset.mode State.reset.pos = 0 ∧ State.reset.cmd = [] ∧ State.reset.rsp = []
  ∧ (∀ s : State, HostMove.reset.apply s = State.reset)
  ∧ (∀ s : State, ∃ t : State, exec .destroy s = .next t ∧ State.reset.sameContext t)
  ∧ ∀ (s : State) (bytes : List Byte), ((HostMove.reset.apply s).append bytes).cmd = bytes

/-! ### The whole machine -/

/-- 10_state.md section 9 (the spec's inference): which objects each command may write, complete. Every object a command
does not write, the rest of the command stream and the responses already there stay as they were. -/
def Obligations.CommandsWriteOnlyTheirObjects : Prop :=
  ∀ (i : Instr) (s t : State), exec i s = .next t →
    t.cmd = s.cmd ∧ (∃ r, t.rsp = s.rsp ++ r)
    ∧ match i with
      | .qr _ _ _ _ _ => s.sameContext t
      | .permute _ => s.sameContext t
      | .hsalsa _ _ => s.sameContext t
      | .init _ key nonce => t.K = s.K ∧ (¬ initAccepted key nonce → s.sameContext t)
      | .crypt olen input =>
        t.mode = s.mode ∧ (∀ j : Fin 16, j ≠ 8 → j ≠ 9 → t.S[j] = s.S[j])
        ∧ (input = [] ∨ olen.toNat < input.length ∨ s.mode = .idle → s.sameContext t)
      | .destroy => True
      | .status => s.sameContext t

/-- 10_state.md R27: the codes of `MODE`, and that it is written by an INIT that succeeds, to the layout, by DESTROY, to
IDLE, by reset, to IDLE, and by nothing else. -/
def Obligations.ModeChangesOnlyByInitDestroyAndReset : Prop :=
  (Mode.idle.code = 0 ∧ Mode.n8.code = 1 ∧ Mode.n12.code = 2 ∧ Mode.n16.code = 3)
  ∧ (∀ s t : State, step s = .next t →
      (∀ i rest, decode s.cmd = .packet i rest → ¬ i.setsMode) → t.mode = s.mode)
  ∧ (∀ s t : State, exec .destroy s = .next t → t.mode = .idle)
  ∧ (∀ (c : BitVec 64) (key nonce : List Byte) (s t : State), initAccepted key nonce →
      exec (.init c key nonce) s = .next t →
      t.mode = if nonce.length = 12 then .n12 else if nonce.length = 16 then .n16 else .n8)
  ∧ ∀ (m : HostMove) (s : State), (m.apply s).mode = if m = .reset then .idle else s.mode

/-- 10_state.md section 8, item 3 (the spec's inference): no step but a DESTROY or an INIT that succeeds changes a
constant word, a key word or a nonce word of the layout in force. -/
def Obligations.KeyAndNonceWordsStay : Prop :=
  ∀ s t : State, step s = .next t → (∀ i rest, decode s.cmd = .packet i rest → ¬ i.setsMode) →
    (∀ j : Fin 16, j ≠ 8 → j ≠ 9 → t.S[j] = s.S[j])
    ∧ (s.mode ≠ .n8 → t.S[8] = s.S[8]) ∧ (s.mode ≠ .n8 → s.mode ≠ .n12 → t.S[9] = s.S[9])

/-- 10_state.md section 8: the reset state meets the invariants. -/
def Obligations.ResetMeetsTheInvariants : Prop := State.reset.Inv

/-- 10_state.md section 8 (the spec's inference): from every state that meets the invariants, reachable or not, a step
gives a state that meets them. -/
def Obligations.EveryStepKeepsTheInvariants : Prop :=
  ∀ s t : State, s.Inv → step s = .next t → t.Inv

/-- 10_state.md section 8 with 20_memory.md section 5: whatever the host appends, takes away or resets between steps, the
unit is always in a state that meets the invariants. -/
def Obligations.EveryReachableStateMeetsTheInvariants : Prop :=
  ∀ s : State, Reachable s → s.Inv

/-- 20_memory.md section 4, item 2 (the spec's inference): a command's answer and the context after it are determined by
the context before it and the command; neither the streams nor anything else enters. -/
def Obligations.AnswerIsDeterminedByContextAndCommand : Prop :=
  ∀ (i : Instr) (s s' : State), s.sameContext s' →
    ∃ (t t' : State) (r : List Byte), exec i s = .next t ∧ exec i s' = .next t'
      ∧ t.rsp = s.rsp ++ r ∧ t'.rsp = s'.rsp ++ r ∧ t.sameContext t'

/-- 20_memory.md section 3, 10_state.md sections 2, 3 and 6: no command but CRYPT lets a bit of `S` or `K` into its
answer; `MODE` and `POS` determine it. -/
def Obligations.SecretsReachNoAnswerButCrypts : Prop :=
  ∀ (i : Instr) (s s' : State), (∀ olen input, i ≠ .crypt olen input) → s'.mode = s.mode → s'.pos = s.pos →
    ∃ (t t' : State) (r : List Byte), exec i s = .next t ∧ exec i s' = .next t'
      ∧ t.rsp = s.rsp ++ r ∧ t'.rsp = s'.rsp ++ r ∧ t'.mode = t.mode ∧ t'.pos = t.pos

/-- 20_memory.md section 4 and 93_implementation_defined.md U8: while `POS = 0` the content of `K` cannot be told: two
states that differ in `K` alone answer every command alike, and afterwards are equal or again differ in `K` alone with
`POS = 0`. -/
def Obligations.StaleKeystreamIsUnobservable : Prop :=
  ∀ (i : Instr) (s : State) (k : Block), s.pos = 0 →
    ∃ t t' : State, exec i s = .next t ∧ exec i (s.setK k) = .next t'
      ∧ (t' = t ∨ (t.pos = 0 ∧ t' = t.setK k))

/-- 70_reset_and_hazards.md section 2 and 60_exceptions.md section 6: from IDLE, no sequence of commands without an INIT
that succeeds leaves IDLE or makes a CRYPT return data. -/
def Obligations.NoContextWithoutInit : Prop :=
  ∀ (is : List Instr) (s : State), s.mode = .idle →
    (∀ c key nonce, initAccepted key nonce → Instr.init c key nonce ∉ is) →
    ∃ t : State, runCommands is s = .next t ∧ t.mode = .idle
      ∧ ∀ (olen : Word) (input : List Byte),
          exec (.crypt olen input) t
            = .next { t with rsp := t.rsp ++ [if olen.toNat < input.length then 0x03 else 0x05, 0x11, 0x00, 0x00] }

/-- 20_memory.md section 1 and section 5: appending changes the command stream alone, and joins; taking responses
changes the response stream alone. -/
def Obligations.HostMovesLeaveTheContextAlone : Prop :=
  (∀ (s : State) (a b : List Byte), s.sameContext (s.append a) ∧ (s.append a).rsp = s.rsp
    ∧ (s.append a).cmd = s.cmd ++ a ∧ (s.append a).append b = s.append (a ++ b))
  ∧ (∀ (s : State) (n m : Nat), s.sameContext (s.drain n) ∧ (s.drain n).cmd = s.cmd
    ∧ (s.drain n).rsp = s.rsp.drop n ∧ (s.drain n).drain m = s.drain (n + m))
end

