-- ==== Sys2Proof/Laws/Bytes.lean ====
section
/-! SUPPORT. The byte-order operations: lengths, loads and stores undo each other, and a load looks at its own bytes
only. -/

namespace Sys2Proof

/-- The word addition is Lean's own (R8). -/
@[simp] theorem add32_eq (x y : Word) : add32 x y = x + y := rfl

@[simp] theorem length_store32le (w : Word) : (store32le w).length = 4 := rfl

@[simp] theorem length_store64le (v : BitVec 64) : (store64le v).length = 8 := rfl

@[simp] theorem length_bytesLe (x : Block) : (bytesLe x).length = 64 := by
  simp [bytesLe, List.length_flatMap]

@[simp] theorem length_header (op : Opcode) (f1 f2 : Byte) : (header op f1 f2).length = 4 := rfl

@[simp] theorem length_slice (b : List Byte) (lo hi : Nat) : (slice b lo hi).length = min hi b.length - lo := by
  simp [slice]

theorem byteAt_append_left {a b : List Byte} {i : Nat} (h : i < a.length) : byteAt (a ++ b) i = byteAt a i := by
  simp [byteAt, List.getD_eq_getElem?_getD, List.getElem?_append_left h]

theorem byteAt_append_right {a b : List Byte} (i : Nat) : byteAt (a ++ b) (a.length + i) = byteAt b i := by
  simp [byteAt, List.getD_eq_getElem?_getD, List.getElem?_append_right]

/-- A load inside the first part of a byte string does not see the second. -/
theorem load32le_append_left {a b : List Byte} {o : Nat} (h : o + 4 ≤ a.length) :
    load32le (a ++ b) o = load32le a o := by
  simp only [load32le]
  rw [byteAt_append_left (by omega), byteAt_append_left (by omega), byteAt_append_left (by omega),
    byteAt_append_left (by omega)]

/-- A load beyond the first part of a byte string sees the second only. -/
theorem load32le_append_right {a b : List Byte} (o : Nat) : load32le (a ++ b) (a.length + o) = load32le b o := by
  simp only [load32le, Nat.add_assoc, byteAt_append_right]

theorem load32le_toNat (b : List Byte) (o : Nat) :
    (load32le b o).toNat = (byteAt b o).toNat + 0x100 * (byteAt b (o + 1)).toNat
      + 0x10000 * (byteAt b (o + 2)).toNat + 0x1000000 * (byteAt b (o + 3)).toNat := by
  have h0 := (byteAt b o).isLt
  have h1 := (byteAt b (o + 1)).isLt
  have h2 := (byteAt b (o + 2)).isLt
  have h3 := (byteAt b (o + 3)).isLt
  simp only [load32le, BitVec.toNat_ofNat]
  omega

/-- Loading what was stored gives it back. -/
@[simp] theorem load32le_store32le (w : Word) : load32le (store32le w) 0 = w := by
  apply BitVec.eq_of_toNat_eq
  rw [load32le_toNat]
  have := w.isLt
  simp [byteAt, store32le, BitVec.extractLsb'_toNat, Nat.shiftRight_eq_div_pow]
  omega

/-- Loading what was stored in front of other bytes gives it back. -/
@[simp] theorem load32le_store32le_append (w : Word) (b : List Byte) : load32le (store32le w ++ b) 0 = w := by
  rw [load32le_append_left (by simp), load32le_store32le]

/-- Storing what was loaded from four bytes gives them back. -/
theorem store32le_load32le (b0 b1 b2 b3 : Byte) (b : List Byte) :
    store32le (load32le (b0 :: b1 :: b2 :: b3 :: b) 0) = [b0, b1, b2, b3] := by
  have e0 := b0.isLt
  have e1 := b1.isLt
  have e2 := b2.isLt
  have e3 := b3.isLt
  simp only [store32le, List.cons.injEq, and_true]
  refine ⟨?_, ?_, ?_, ?_⟩ <;>
    (apply BitVec.eq_of_toNat_eq
     simp only [BitVec.extractLsb'_toNat, load32le_toNat, byteAt, List.getD_cons_zero, List.getD_cons_succ,
       Nat.shiftRight_eq_div_pow]
     omega)

@[simp] theorem load64le_store64le_append (v : BitVec 64) (b : List Byte) : load64le (store64le v ++ b) 0 = v := by
  have h0 : load32le (store64le v ++ b) 0 = v.extractLsb' 0 32 := by
    simp [store64le, List.append_assoc]
  have h4 : load32le (store64le v ++ b) (0 + 4) = v.extractLsb' 32 32 := by
    have := load32le_append_right (a := store32le (v.extractLsb' 0 32))
      (b := store32le (v.extractLsb' 32 32) ++ b) 0
    simpa [store64le, List.append_assoc] using this
  apply BitVec.eq_of_toNat_eq
  have := v.isLt
  simp only [load64le, h0, h4, BitVec.toNat_ofNat, BitVec.extractLsb'_toNat, Nat.shiftRight_eq_div_pow]
  omega

/-- The bytes of a list of words hold word `i` at offset `4 i`. -/
theorem load32le_flatMap_store32le (ws : List Word) (i : Nat) (h : i < ws.length) :
    load32le (ws.flatMap store32le) (4 * i) = ws[i] := by
  induction ws generalizing i with
  | nil => simp at h
  | cons w ws ih =>
    cases i with
    | zero => simp
    | succ i =>
      have := load32le_append_right (a := store32le w) (b := ws.flatMap store32le) (4 * i)
      have e : 4 * (i + 1) = (store32le w).length + 4 * i := by simp; omega
      rw [List.flatMap_cons, e, this, ih i (by simpa using h)]
      rfl

/-- Sixteen words, written as bytes and read back. -/
@[simp] theorem wordsLe_bytesLe (x : Block) : wordsLe (bytesLe x) = x := by
  apply Vector.ext
  intro i hi
  have := load32le_flatMap_store32le x.toList i (by simpa using hi)
  simpa [wordsLe, bytesLe] using this

/-- A byte of `bytes_le` lies in the word its index names (R25). -/
theorem bytesLe_getD (x : Block) (i : Nat) (h : i < 64) :
    (bytesLe x).getD i 0 = (x[i / 4]'(by omega)).extractLsb' (8 * (i % 4)) 8 := by
  have key : ∀ (ws : List Word) (i : Nat) (hi : i / 4 < ws.length),
      (ws.flatMap store32le).getD i 0 = (ws[i / 4]'hi).extractLsb' (8 * (i % 4)) 8 := by
    intro ws
    induction ws with
    | nil => intro i hi; simp at hi
    | cons w ws ih =>
      intro i hi
      match i, hi with
      | 0, _ => rfl
      | 1, _ => rfl
      | 2, _ => rfl
      | 3, _ => rfl
      | i + 4, hi =>
        have e : (i + 4) / 4 = i / 4 + 1 := by omega
        have e' : (i + 4) % 4 = i % 4 := by omega
        simp only [List.flatMap_cons, store32le, List.cons_append, List.nil_append, List.getD_cons_succ, e, e',
          List.getElem_cons_succ]
        exact ih i (by simp at hi; omega)
  have := key x.toList i (by simp; omega)
  simpa [bytesLe] using this

end Sys2Proof
end

