-- ==== Sys2Proof/Laws/Config.lean ====
section
/-! SUPPORT. The widths Config carries are the ones the types are written with, and the checks that read Config in plain
numbers. -/

namespace Sys2Proof

/-- `WORD` is the width of a word (R6). -/
theorem word_width : Word = BitVec Config.wordBits := rfl

/-- `NWORDS` is the number of words of `S`, of `K` and of a scratch array (R6). -/
theorem block_width : Block = Vector Word Config.nwords := rfl

/-- `BLOCK_BYTES` is the bytes of `NWORDS` words, and the values of the 6 bits of `POS` (R6, R26). -/
theorem blockBytes_eq : Config.blockBytes = Config.nwords * (Config.wordBits / 8) ∧ Config.blockBytes = 2 ^ 6 := by
  decide

/-- A length fits its header field when it is at most 255 (R66). -/
@[simp] theorem declarable_iff (b : List Byte) : declarable b = true ↔ b.length ≤ 255 := by
  simp only [declarable, decide_eq_true_eq]
  exact Nat.lt_succ_iff

/-- A length fits `ILEN` when it is below 2^32 (R69). -/
@[simp] theorem sendable_iff (b : List Byte) : sendable b = true ↔ b.length < 2 ^ 32 := by
  simp only [sendable, decide_eq_true_eq]

/-- The nonce lengths INIT accepts (R112). -/
@[simp] theorem mem_nonceLengths (n : Nat) :
    n ∈ Config.nonceLengths ↔ n = 8 ∨ n = 12 ∨ n = 16 ∨ n = 24 := by
  simp [Config.nonceLengths]

end Sys2Proof
end

