-- ==== Sys2Proof/Laws/State.lean ====
section
/-! SUPPORT. One lemma per field per update of the state, each true by rfl, so that no proof unfolds a record update. -/

namespace Sys2Proof.Machine

variable (s : State)

@[simp] theorem State.setS_S (x : Block) : (s.setS x).S = x := rfl
@[simp] theorem State.setS_K (x : Block) : (s.setS x).K = s.K := rfl
@[simp] theorem State.setS_pos (x : Block) : (s.setS x).pos = s.pos := rfl
@[simp] theorem State.setS_mode (x : Block) : (s.setS x).mode = s.mode := rfl
@[simp] theorem State.setS_cmd (x : Block) : (s.setS x).cmd = s.cmd := rfl
@[simp] theorem State.setS_rsp (x : Block) : (s.setS x).rsp = s.rsp := rfl

@[simp] theorem State.setK_S (x : Block) : (s.setK x).S = s.S := rfl
@[simp] theorem State.setK_K (x : Block) : (s.setK x).K = x := rfl
@[simp] theorem State.setK_pos (x : Block) : (s.setK x).pos = s.pos := rfl
@[simp] theorem State.setK_mode (x : Block) : (s.setK x).mode = s.mode := rfl
@[simp] theorem State.setK_cmd (x : Block) : (s.setK x).cmd = s.cmd := rfl
@[simp] theorem State.setK_rsp (x : Block) : (s.setK x).rsp = s.rsp := rfl

@[simp] theorem State.setPos_S (p : BitVec 6) : (s.setPos p).S = s.S := rfl
@[simp] theorem State.setPos_K (p : BitVec 6) : (s.setPos p).K = s.K := rfl
@[simp] theorem State.setPos_pos (p : BitVec 6) : (s.setPos p).pos = p := rfl
@[simp] theorem State.setPos_mode (p : BitVec 6) : (s.setPos p).mode = s.mode := rfl
@[simp] theorem State.setPos_cmd (p : BitVec 6) : (s.setPos p).cmd = s.cmd := rfl
@[simp] theorem State.setPos_rsp (p : BitVec 6) : (s.setPos p).rsp = s.rsp := rfl

@[simp] theorem State.setMode_S (m : Mode) : (s.setMode m).S = s.S := rfl
@[simp] theorem State.setMode_K (m : Mode) : (s.setMode m).K = s.K := rfl
@[simp] theorem State.setMode_pos (m : Mode) : (s.setMode m).pos = s.pos := rfl
@[simp] theorem State.setMode_mode (m : Mode) : (s.setMode m).mode = m := rfl
@[simp] theorem State.setMode_cmd (m : Mode) : (s.setMode m).cmd = s.cmd := rfl
@[simp] theorem State.setMode_rsp (m : Mode) : (s.setMode m).rsp = s.rsp := rfl

@[simp] theorem State.setCmd_S (bytes : List Byte) : (s.setCmd bytes).S = s.S := rfl
@[simp] theorem State.setCmd_K (bytes : List Byte) : (s.setCmd bytes).K = s.K := rfl
@[simp] theorem State.setCmd_pos (bytes : List Byte) : (s.setCmd bytes).pos = s.pos := rfl
@[simp] theorem State.setCmd_mode (bytes : List Byte) : (s.setCmd bytes).mode = s.mode := rfl
@[simp] theorem State.setCmd_cmd (bytes : List Byte) : (s.setCmd bytes).cmd = bytes := rfl
@[simp] theorem State.setCmd_rsp (bytes : List Byte) : (s.setCmd bytes).rsp = s.rsp := rfl

@[simp] theorem State.rspWrite_S (bytes : List Byte) : (s.rspWrite bytes).S = s.S := rfl
@[simp] theorem State.rspWrite_K (bytes : List Byte) : (s.rspWrite bytes).K = s.K := rfl
@[simp] theorem State.rspWrite_pos (bytes : List Byte) : (s.rspWrite bytes).pos = s.pos := rfl
@[simp] theorem State.rspWrite_mode (bytes : List Byte) : (s.rspWrite bytes).mode = s.mode := rfl
@[simp] theorem State.rspWrite_cmd (bytes : List Byte) : (s.rspWrite bytes).cmd = s.cmd := rfl
@[simp] theorem State.rspWrite_rsp (bytes : List Byte) : (s.rspWrite bytes).rsp = s.rsp ++ bytes := rfl

@[simp] theorem State.setCmd_setCmd (a b : List Byte) : (s.setCmd a).setCmd b = s.setCmd b := rfl
@[simp] theorem State.setCmd_self : s.setCmd s.cmd = s := rfl
@[simp] theorem State.rspWrite_rspWrite (a b : List Byte) : (s.rspWrite a).rspWrite b = s.rspWrite (a ++ b) := by
  simp [State.rspWrite]
theorem State.rspWrite_setCmd (a b : List Byte) : (s.setCmd a).rspWrite b = (s.rspWrite b).setCmd a := rfl

@[simp] theorem State.append_S (bytes : List Byte) : (s.append bytes).S = s.S := rfl
@[simp] theorem State.append_K (bytes : List Byte) : (s.append bytes).K = s.K := rfl
@[simp] theorem State.append_pos (bytes : List Byte) : (s.append bytes).pos = s.pos := rfl
@[simp] theorem State.append_mode (bytes : List Byte) : (s.append bytes).mode = s.mode := rfl
@[simp] theorem State.append_cmd (bytes : List Byte) : (s.append bytes).cmd = s.cmd ++ bytes := rfl
@[simp] theorem State.append_rsp (bytes : List Byte) : (s.append bytes).rsp = s.rsp := rfl

@[simp] theorem State.drain_S (n : Nat) : (s.drain n).S = s.S := rfl
@[simp] theorem State.drain_K (n : Nat) : (s.drain n).K = s.K := rfl
@[simp] theorem State.drain_pos (n : Nat) : (s.drain n).pos = s.pos := rfl
@[simp] theorem State.drain_mode (n : Nat) : (s.drain n).mode = s.mode := rfl
@[simp] theorem State.drain_cmd (n : Nat) : (s.drain n).cmd = s.cmd := rfl
@[simp] theorem State.drain_rsp (n : Nat) : (s.drain n).rsp = s.rsp.drop n := rfl

@[simp] theorem hold_eq : hold s = s := rfl

@[simp] theorem State.reset_S : State.reset.S = Block.zero := rfl
@[simp] theorem State.reset_K : State.reset.K = Block.zero := rfl
@[simp] theorem State.reset_pos : State.reset.pos = 0 := rfl
@[simp] theorem State.reset_mode : State.reset.mode = .idle := rfl
@[simp] theorem State.reset_cmd : State.reset.cmd = [] := rfl
@[simp] theorem State.reset_rsp : State.reset.rsp = [] := rfl

/-- Two states with the same six fields are the same state. -/
theorem State.ext_fields {s t : State} (hS : s.S = t.S) (hK : s.K = t.K) (hp : s.pos = t.pos) (hm : s.mode = t.mode)
    (hc : s.cmd = t.cmd) (hr : s.rsp = t.rsp) : s = t := by
  cases s; cases t; simp_all

end Sys2Proof.Machine
end

