-- ==== Sys2Proof/Laws/Ops.lean ====
section
/-! SUPPORT. What the shared operations do: a response is four header bytes and a body; raising an error appends four
bytes and nothing else; the byte view of a block is its `bytes_le`. -/

namespace Sys2Proof.Machine

/-- The response header in stream order (R74). -/
@[simp] theorem responseBytes_eq (st opc : Byte) (body : List Byte) :
    responseBytes st opc body = st :: opc :: 0 :: 0 :: body := by
  have h := st.isLt
  have h' := opc.isLt
  have e : (responseWord st opc).toNat = st.toNat + 256 * opc.toNat := by
    simp only [responseWord, BitVec.toNat_ofNat]; omega
  have : store32le (responseWord st opc) = [st, opc, 0, 0] := by
    simp only [store32le, List.cons.injEq, and_true]
    refine ⟨?_, ?_, ?_, ?_⟩ <;>
      (apply BitVec.eq_of_toNat_eq
       simp only [BitVec.extractLsb'_toNat, e, Nat.shiftRight_eq_div_pow, BitVec.ofNat_eq_ofNat,
         BitVec.toNat_ofNat]
       omega)
  simp [responseBytes, this]

/-- All a successful answer does to the state it is given. -/
theorem respond_eq (op : Opcode) (body : List Byte) (s : State) :
    respond op body s = s.rspWrite (0x00 :: op.byte :: 0 :: 0 :: body) := by
  simp [respond, statusOk]

/-- All that raising an error does (R150). -/
theorem raise_eq (e : ErrorKind) (opc : Byte) (s : State) : raise e opc s = s.rspWrite [e.code, opc, 0, 0] := by
  simp [raise]

/-- All that an illegal header does (R72). -/
theorem illegalCommand_eq (hw : Word) (s : State) :
    illegalCommand hw s = s.rspWrite [0x06, headerOpc hw, 0, 0] := by
  simp [illegalCommand, raise_eq, ErrorKind.code]

/-- The byte view `KB` is `bytes_le` of the words (R25). -/
theorem keyByte_eq (k : Block) (j : BitVec 6) : keyByte k j = (bytesLe k).getD j.toNat 0 := by
  rw [bytesLe_getD k j.toNat j.isLt]; rfl

end Sys2Proof.Machine
end

