-- ==== Sys2Proof/Laws/Context.lean ====
section
/-! SUPPORT. The cipher context: what a byte of CRYPT, its loop and the counter increment touch. -/

namespace Sys2Proof.Machine

/-- All a layout without a counter word leaves of the increment (R116). -/
@[simp] theorem ctrInc_n16 (S : Block) : ctrInc .n16 S = S := rfl

/-- The increment of a 12-byte-nonce context (R116). -/
theorem ctrInc_n12 (S : Block) : ctrInc .n12 S = S.set 9 (S[9] + 1) := rfl

/-- The increment of an 8-byte-nonce context (R116). -/
theorem ctrInc_n8 (S : Block) : ctrInc .n8 S = incPair S := rfl

/-- The 64-bit increment where the low word wraps (R116). -/
theorem incPair_of_carry (S : Block) (h : S[8] + 1 = 0) : incPair S = (S.set 8 0).set 9 (S[9] + 1) := by
  have e : (S.set 8 (add32 S[8] 1))[8] = 0 := by simpa using h
  simp only [incPair]
  rw [if_pos e]
  simp only [add32_eq, h]
  simp

/-- The 64-bit increment where the low word does not wrap (R116). -/
theorem incPair_of_noCarry (S : Block) (h : S[8] + 1 ≠ 0) : incPair S = S.set 8 (S[8] + 1) := by
  have e : ¬ (S.set 8 (add32 S[8] 1))[8] = 0 := by simpa using h
  simp only [incPair]
  rw [if_neg e]

/-- The increment writes no word but 8 and 9 (R33 item 3). -/
theorem ctrInc_getElem_other (mode : Mode) (S : Block) (i : Nat) (hi : i < 16) (h8 : i ≠ 8) (h9 : i ≠ 9) :
    (ctrInc mode S)[i] = S[i] := by
  cases mode
  · rfl
  · simp only [ctrInc_n8, incPair]
    split <;> simp [Ne.symm h8, Ne.symm h9]
  · simp [ctrInc_n12, Ne.symm h9]
  · rfl

/-- Outside the 8-byte-nonce layout the increment leaves word 8 alone (R116). -/
theorem ctrInc_getElem_eight (mode : Mode) (S : Block) (h : mode ≠ .n8) : (ctrInc mode S)[8] = S[8] := by
  cases mode
  · rfl
  · exact absurd rfl h
  · simp [ctrInc_n12]
  · rfl

section BlockGeneration

variable (s : State)

@[simp] theorem blockGen_S : (blockGen s).S = ctrInc s.mode s.S := rfl
@[simp] theorem blockGen_K : (blockGen s).K = keyBlock s.S := rfl
@[simp] theorem blockGen_pos : (blockGen s).pos = s.pos := rfl
@[simp] theorem blockGen_mode : (blockGen s).mode = s.mode := rfl
@[simp] theorem blockGen_cmd : (blockGen s).cmd = s.cmd := rfl
@[simp] theorem blockGen_rsp : (blockGen s).rsp = s.rsp := rfl

@[simp] theorem refill_pos : (refill s).pos = s.pos := by unfold refill; split <;> rfl
@[simp] theorem refill_mode : (refill s).mode = s.mode := by unfold refill; split <;> rfl
@[simp] theorem refill_cmd : (refill s).cmd = s.cmd := by unfold refill; split <;> rfl
@[simp] theorem refill_rsp : (refill s).rsp = s.rsp := by unfold refill; split <;> rfl

theorem refill_of_zero (h : s.pos = 0) : refill s = blockGen s := if_pos h
theorem refill_of_ne (h : s.pos ≠ 0) : refill s = s := if_neg h

end BlockGeneration

/-- The lane of the feed-forward (R115 step 3). -/
theorem keyBlock_getElem (S : Block) (i : Nat) (hi : i < 16) : (keyBlock S)[i] = (permute S)[i] + S[i] := by
  simp [keyBlock]

/-- The position wraps as its 6 bits do (R26). -/
@[simp] theorem nextPos_eq (p : BitVec 6) : nextPos p = p + 1 := by
  apply BitVec.eq_of_toNat_eq
  simp [nextPos]

/-- The length of a nonce INIT takes as it is gives its layout (R23). -/
@[simp] theorem layoutOf_8 : layoutOf 8 = some .n8 := rfl
@[simp] theorem layoutOf_12 : layoutOf 12 = some .n12 := rfl
@[simp] theorem layoutOf_16 : layoutOf 16 = some .n16 := rfl

/-- Which lengths have which layout (R23, R112). -/
theorem layoutOf_eq_some {n : Nat} {layout : Layout} (h : layoutOf n = some layout) :
    (n = 8 ∧ layout = .n8) ∨ (n = 12 ∧ layout = .n12) ∨ (n = 16 ∧ layout = .n16) := by
  simp only [layoutOf] at h
  split_ifs at h <;> simp_all

section Loop

@[simp] theorem cryptLoop_nil (s : State) : cryptLoop [] s = ([], s) := rfl

theorem cryptLoop_cons (b : Byte) (bs : List Byte) (s : State) :
    cryptLoop (b :: bs) s
      = ((cryptByte b s).1 :: (cryptLoop bs (cryptByte b s).2).1, (cryptLoop bs (cryptByte b s).2).2) := rfl

/-- A byte of CRYPT changes the context whatever the byte is (R122 item 5). -/
theorem cryptByte_snd (b : Byte) (s : State) : (cryptByte b s).2 = (refill s).setPos (s.pos + 1) := by
  simp [cryptByte]

theorem cryptByte_fst (b : Byte) (s : State) : (cryptByte b s).1 = b ^^^ keyByte (refill s).K s.pos := by
  simp [cryptByte]

/-- The loop over two strings is the loop over the first, then over the second (R122 item 1). -/
theorem cryptLoop_append (as bs : List Byte) (s : State) :
    cryptLoop (as ++ bs) s
      = ((cryptLoop as s).1 ++ (cryptLoop bs (cryptLoop as s).2).1, (cryptLoop bs (cryptLoop as s).2).2) := by
  induction as generalizing s with
  | nil => simp
  | cons a as ih => simp [cryptLoop_cons, ih]

@[simp] theorem cryptLoop_length (bs : List Byte) (s : State) : (cryptLoop bs s).1.length = bs.length := by
  induction bs generalizing s with
  | nil => rfl
  | cons b bs ih => simp [cryptLoop_cons, ih]

@[simp] theorem cryptLoop_mode (bs : List Byte) (s : State) : (cryptLoop bs s).2.mode = s.mode := by
  induction bs generalizing s with
  | nil => rfl
  | cons b bs ih => simp [cryptLoop_cons, ih, cryptByte_snd]

@[simp] theorem cryptLoop_cmd (bs : List Byte) (s : State) : (cryptLoop bs s).2.cmd = s.cmd := by
  induction bs generalizing s with
  | nil => rfl
  | cons b bs ih => simp [cryptLoop_cons, ih, cryptByte_snd]

@[simp] theorem cryptLoop_rsp (bs : List Byte) (s : State) : (cryptLoop bs s).2.rsp = s.rsp := by
  induction bs generalizing s with
  | nil => rfl
  | cons b bs ih => simp [cryptLoop_cons, ih, cryptByte_snd]

/-- The position advances by one per byte, modulo 64 (R119 step 3). -/
theorem cryptLoop_pos (bs : List Byte) (s : State) :
    (cryptLoop bs s).2.pos = s.pos + BitVec.ofNat 6 bs.length := by
  induction bs generalizing s with
  | nil => simp
  | cons b bs ih =>
    simp only [cryptLoop_cons, ih, cryptByte_snd, State.setPos_pos, List.length_cons]
    apply BitVec.eq_of_toNat_eq
    simp only [BitVec.toNat_add, BitVec.toNat_ofNat, BitVec.ofNat_eq_ofNat]
    omega

end Loop

/-- Zeroising leaves the reset context and neither stream touched (R121). -/
theorem zeroise_eq (s : State) : zeroise s = { State.reset with cmd := s.cmd, rsp := s.rsp } := rfl

/-- A 24-byte nonce is reduced (R113). -/
theorem effective_reduced (key nonce : List Byte) (h : nonce.length = 24) :
    effectiveKeyNonce key nonce = (hsalsa20 (slice key 0 32) (slice nonce 0 16), slice nonce 16 24) := if_pos h

/-- A nonce of any other length is used as it is (R113). -/
theorem effective_plain (key nonce : List Byte) (h : nonce.length ≠ 24) :
    effectiveKeyNonce key nonce = (slice key 0 32, nonce) := if_neg h

/-- The effective nonce has the layout of a length INIT accepts (R110, R112). -/
theorem effective_length (key nonce : List Byte) (h : nonce.length = 24) :
    (effectiveKeyNonce key nonce).2.length = 8 := by
  simp [effective_reduced key nonce h, h]

@[simp] theorem length_hsalsa20 (key nonce : List Byte) : (hsalsa20 key nonce).length = 32 := by
  simp [hsalsa20, Config.hsOut]

end Sys2Proof.Machine
end

