-- ==== Sys2Proof/Laws/Decode.lean ====
section
/-! SUPPORT. The decoder: the header word byte by byte, and the one way each of the three outcomes of a decode comes
about. -/

namespace Sys2Proof

/-- The four header bytes as the slices of the header word (R61). -/
theorem header_fields (h0 h1 h2 h3 : Byte) (b : List Byte) :
    headerOpc (load32le (h0 :: h1 :: h2 :: h3 :: b) 0) = h0 ∧ headerF1 (load32le (h0 :: h1 :: h2 :: h3 :: b) 0) = h1
      ∧ headerF2 (load32le (h0 :: h1 :: h2 :: h3 :: b) 0) = h2
      ∧ (load32le (h0 :: h1 :: h2 :: h3 :: b) 0).extractLsb' 24 8 = h3 := by
  have := store32le_load32le h0 h1 h2 h3 b
  simpa [store32le, headerOpc, headerF1, headerF2] using this

/-- The header word is its four bytes side by side, the last one highest (R61). -/
theorem load32le_eq_append (h0 h1 h2 h3 : Byte) (b : List Byte) :
    load32le (h0 :: h1 :: h2 :: h3 :: b) 0 = ((h3 ++ h2) ++ h1) ++ h0 := by
  have e0 := h0.isLt
  have e1 := h1.isLt
  have e2 := h2.isLt
  have e3 := h3.isLt
  apply BitVec.eq_of_toNat_eq
  simp only [load32le_toNat, byteAt, List.getD_cons_zero, List.getD_cons_succ, BitVec.toNat_append,
    Nat.shiftLeft_eq]
  rw [Nat.or_comm, ← Nat.shiftLeft_eq, ← Nat.shiftLeft_eq, ← Nat.shiftLeft_eq,
    Nat.or_comm (_ <<< 8) h1.toNat, Nat.or_comm (_ <<< 8) h2.toNat]
  rw [Nat.or_comm h2.toNat, ← Nat.shiftLeft_add_eq_or_of_lt e2, Nat.or_comm h1.toNat,
    ← Nat.shiftLeft_add_eq_or_of_lt e1, Nat.or_comm h0.toNat, ← Nat.shiftLeft_add_eq_or_of_lt e0]
  simp only [Nat.shiftLeft_eq]
  omega

/-- All a decode can be, by the length of the stream, the header's row and the length of the body (R43, R62). -/
theorem decode_cases (bytes : List Byte) :
    (bytes.length < 4 ∧ decode bytes = .hold)
    ∨ (4 ≤ bytes.length ∧ selectRow (load32le bytes 0) = none
        ∧ decode bytes = .illegal (load32le bytes 0) (bytes.drop 4))
    ∨ (∃ op, 4 ≤ bytes.length ∧ selectRow (load32le bytes 0) = some op
        ∧ bodyLength op (load32le bytes 0) (bytes.drop 4) = none ∧ decode bytes = .hold)
    ∨ (∃ op n, 4 ≤ bytes.length ∧ selectRow (load32le bytes 0) = some op
        ∧ bodyLength op (load32le bytes 0) (bytes.drop 4) = some n ∧ (bytes.drop 4).length < n
        ∧ decode bytes = .hold)
    ∨ (∃ op n, 4 ≤ bytes.length ∧ selectRow (load32le bytes 0) = some op
        ∧ bodyLength op (load32le bytes 0) (bytes.drop 4) = some n ∧ n ≤ (bytes.drop 4).length
        ∧ decode bytes
          = .packet (assemble op (load32le bytes 0) ((bytes.drop 4).take n)) ((bytes.drop 4).drop n)) := by
  by_cases hlen : bytes.length < 4
  · exact .inl ⟨hlen, by simp [decode, hlen]⟩
  · have h4 : 4 ≤ bytes.length := by omega
    cases hop : selectRow (load32le bytes 0) with
    | none => exact .inr (.inl ⟨h4, rfl, by simp only [decode, hlen, if_false, hop, cmdRead]⟩)
    | some op =>
      cases hn : bodyLength op (load32le bytes 0) (bytes.drop 4) with
      | none => exact .inr (.inr (.inl ⟨op, h4, rfl, hn, by simp only [decode, hlen, if_false, hop, cmdRead, hn]⟩))
      | some n =>
        by_cases hle : (bytes.drop 4).length < n
        · exact .inr (.inr (.inr (.inl ⟨op, n, h4, rfl, hn, hle,
            by simp only [decode, hlen, if_false, hop, cmdRead, hn, hle, if_true]⟩)))
        · exact .inr (.inr (.inr (.inr ⟨op, n, h4, rfl, hn, by omega,
            by simp only [decode, hlen, if_false, hop, cmdRead, hn, hle]⟩)))

/-- A decode that yields a command took the header's row and the whole body off the stream (R62). -/
theorem decode_eq_packet {bytes rest : List Byte} {i : Instr} (h : decode bytes = .packet i rest) :
    4 ≤ bytes.length ∧ ∃ op n, selectRow (load32le bytes 0) = some op
      ∧ bodyLength op (load32le bytes 0) (bytes.drop 4) = some n ∧ n ≤ (bytes.drop 4).length
      ∧ i = assemble op (load32le bytes 0) ((bytes.drop 4).take n) ∧ rest = (bytes.drop 4).drop n := by
  obtain ⟨-, e⟩ | ⟨-, -, e⟩ | ⟨op, -, -, -, e⟩ | ⟨op, n, -, -, -, -, e⟩ | ⟨op, n, h4, hop, hn, hle, e⟩ :=
    decode_cases bytes <;> rw [e] at h <;> cases h
  exact ⟨h4, op, n, hop, hn, hle, rfl, rfl⟩

/-- A decode that finds an illegal header removed its four bytes and nothing else (R62 step 3). -/
theorem decode_eq_illegal {bytes rest : List Byte} {hw : Word} (h : decode bytes = .illegal hw rest) :
    4 ≤ bytes.length ∧ hw = load32le bytes 0 ∧ selectRow hw = none ∧ rest = bytes.drop 4 := by
  obtain ⟨-, e⟩ | ⟨h4, hop, e⟩ | ⟨op, -, -, -, e⟩ | ⟨op, n, -, -, -, -, e⟩ | ⟨op, n, -, -, -, -, e⟩ :=
    decode_cases bytes <;> rw [e] at h <;> cases h
  exact ⟨h4, rfl, hop, rfl⟩

end Sys2Proof
end

