-- ==== Sys2Proof/Laws/PerInstr.lean ====
section
/-! SUPPORT. Facts about every command as syntax, one lemma per constructor: the packet of a command has the length the
table of 30_encoding.md R60 gives. -/

namespace Sys2Proof.Laws

/-- The encoder's packet has the length of R60. -/
def EncodedLength.Statement (i : Instr) : Prop := (encode i).length = i.packetBytes

theorem EncodedLength.qr (a b c d : Fin 16) (x : Block) : EncodedLength.Statement (.qr a b c d x) := by
  simp [EncodedLength.Statement, encode, Instr.packetBytes]

theorem EncodedLength.permute (x : Block) : EncodedLength.Statement (.permute x) := by
  simp [EncodedLength.Statement, encode, Instr.packetBytes]

theorem EncodedLength.hsalsa (key nonce : List Byte) : EncodedLength.Statement (.hsalsa key nonce) := by
  simp [EncodedLength.Statement, encode, Instr.packetBytes]; omega

theorem EncodedLength.init (counter : BitVec 64) (key nonce : List Byte) :
    EncodedLength.Statement (.init counter key nonce) := by
  simp [EncodedLength.Statement, encode, Instr.packetBytes]; omega

theorem EncodedLength.crypt (olen : Word) (input : List Byte) : EncodedLength.Statement (.crypt olen input) := by
  simp [EncodedLength.Statement, encode, Instr.packetBytes]; omega

theorem EncodedLength.destroy : EncodedLength.Statement .destroy := rfl

theorem EncodedLength.status : EncodedLength.Statement .status := rfl

end Sys2Proof.Laws
end

