-- ==== Sys2Proof/Laws/Permutation.lean ====
section
/-! SUPPORT. The permutation core: the rotation as Lean's own rotation, and what one statement of a quarter-round
writes. -/

namespace Sys2Proof.Machine

/-- The rotation with the width of a word written out (R9). -/
theorem rotl32_eq (w : Word) (n : Nat) : rotl32 w n = (w <<< n) + (w >>> (32 - n)) := rfl

/-- For an amount between 0 and 32 the spec's formula is the left rotation (R9). -/
theorem rotl32_eq_rotateLeft (w : Word) (n : Nat) (h0 : 0 < n) (h : n < 32) : rotl32 w n = w.rotateLeft n := by
  have e : w <<< n &&& w >>> (32 - n) = 0#32 := by
    ext i hi
    simp only [BitVec.getElem_and, BitVec.getElem_shiftLeft, BitVec.getElem_ushiftRight, BitVec.getElem_zero]
    by_cases hin : i < n
    · simp [hin]
    · have : 32 ≤ 32 - n + i := by omega
      simp [BitVec.getLsbD_of_ge w _ this]
  rw [rotl32_eq, BitVec.rotateLeft_def, Nat.mod_eq_of_lt h]
  exact BitVec.add_eq_or_of_and_eq_zero _ _ e

/-- One statement of a quarter-round writes its target and no other word (R90). -/
theorem mixWord_getElem (x : Block) (t u v : Fin 16) (n : Nat) (i : Nat) (hi : i < 16) :
    (mixWord x t u v n)[i] = if t.val = i then x[t] ^^^ rotl32 (x[u] + x[v]) n else x[i] := by
  simp [mixWord, Vector.getElem_set]

/-- The four column rounds, one quadruple after the other (R93). -/
theorem columnRounds_eq (x : Block) : columnRounds x
    = quarterRound (quarterRound (quarterRound (quarterRound x 0 4 8 12) 5 9 13 1) 10 14 2 6) 15 3 7 11 := rfl

/-- The four row rounds, one quadruple after the other (R93). -/
theorem rowRounds_eq (x : Block) : rowRounds x
    = quarterRound (quarterRound (quarterRound (quarterRound x 0 1 2 3) 5 6 7 4) 10 11 8 9) 15 12 13 14 := rfl

/-- The double round is quarter-rounds on the column quadruples, then on the row quadruples (R93). -/
theorem dround_eq (x : Block) : dround x = quarterRounds (Config.colQuads ++ Config.rowQuads) x := by
  simp [dround, columnRounds, rowRounds, quarterRounds]

/-- `n` double rounds are `n` iterations of the double round (R95). -/
theorem drounds_eq_iterate (n : Nat) (x : Block) : drounds n x = dround^[n] x := by
  induction n generalizing x with
  | zero => rfl
  | succ n ih => rw [drounds, ih, Function.iterate_succ_apply]

end Sys2Proof.Machine
end

