-- ==== Sys2Proof/Laws/Step.lean ====
section
/-! SUPPORT. The meanings and the step, each said once: an answer is one response and a context change, and a step is
one of the three outcomes of a decode. -/

namespace Sys2Proof.Machine

/-- All QR does (R91). -/
theorem exec_qr (a b c d : Fin 16) (x : Block) (s : State) :
    exec (.qr a b c d x) s = .next (s.rspWrite (0x00 :: 0x01 :: 0 :: 0 :: bytesLe (quarterRound x a b c d))) := by
  simp [exec, execQr, respond_eq, Opcode.byte]

/-- All PERMUTE does (R96). -/
theorem exec_permute (x : Block) (s : State) :
    exec (.permute x) s = .next (s.rspWrite (0x00 :: 0x02 :: 0 :: 0 :: bytesLe (permute x))) := by
  simp [exec, execPermute, respond_eq, Opcode.byte]

/-- All DESTROY does (R121). -/
theorem exec_destroy (s : State) : exec .destroy s = .next ((zeroise s).rspWrite [0x00, 0x12, 0, 0]) := by
  simp [exec, execDestroy, respond_eq, Opcode.byte]

/-- All STATUS does (R123). -/
theorem exec_status (s : State) :
    exec .status s = .next (s.rspWrite (0x00 :: 0x13 :: 0 :: 0 :: store32le (statusWord s.mode s.pos))) := by
  simp [exec, execStatus, respond_eq, Opcode.byte]

/-- The two ways HSALSA ends (R141, R142). -/
theorem exec_hsalsa (key nonce : List Byte) (s : State) :
    exec (.hsalsa key nonce) s
      = .next (if key.length = 32 ∧ nonce.length = 16 then s.rspWrite (0x00 :: 0x03 :: 0 :: 0 :: hsalsa20 key nonce)
          else s.rspWrite [0x04, 0x03, 0, 0]) := by
  simp only [exec, execHsalsa, raise_eq, respond_eq, ErrorKind.code, Opcode.byte]
  by_cases h : key.length = 32 ∧ nonce.length = 16
  · simp [h.1, h.2]
  · have : key.length ≠ 32 ∨ nonce.length ≠ 16 := by omega
    simp [h, this]

/-- The layout of an effective nonce, when INIT is accepted (R113). -/
theorem layoutOf_effective (key nonce : List Byte) (h : initAccepted key nonce) :
    ∃ layout, layoutOf (effectiveKeyNonce key nonce).2.length = some layout := by
  obtain ⟨-, h | h | h | h⟩ := h
  · exact ⟨.n8, by simp [effective_plain, h]⟩
  · exact ⟨.n12, by simp [effective_plain, h]⟩
  · exact ⟨.n16, by simp [effective_plain, h]⟩
  · exact ⟨.n8, by simp [effective_length key nonce h]⟩

/-- An INIT whose key is too short (R111). -/
theorem exec_init_shortKey (c : BitVec 64) (key nonce : List Byte) (s : State) (h : key.length < 32) :
    exec (.init c key nonce) s = .next (s.rspWrite [0x01, 0x10, 0, 0]) := by
  simp [exec, execInit, h, raise_eq, ErrorKind.code, Opcode.byte]

/-- An INIT whose nonce has no layout (R112). -/
theorem exec_init_badNonce (c : BitVec 64) (key nonce : List Byte) (s : State) (hk : 32 ≤ key.length)
    (h : ¬ initAccepted key nonce) : exec (.init c key nonce) s = .next (s.rspWrite [0x02, 0x10, 0, 0]) := by
  have hk' : ¬ key.length < 32 := by omega
  have hn : nonce.length ∉ Config.nonceLengths := fun hm => h ⟨hk, (mem_nonceLengths _).mp hm⟩
  simp [exec, execInit, hk', hn, raise_eq, ErrorKind.code, Opcode.byte, -mem_nonceLengths]

/-- An INIT that succeeds (R113). -/
theorem exec_init_accepted (c : BitVec 64) (key nonce : List Byte) (s : State) (h : initAccepted key nonce)
    (layout : Layout) (hl : layoutOf (effectiveKeyNonce key nonce).2.length = some layout) :
    exec (.init c key nonce) s
      = .next ((((s.setS (initWords layout (effectiveKeyNonce key nonce).1 (effectiveKeyNonce key nonce).2 c)).setMode
          layout.mode).setPos 0).rspWrite [0x00, 0x10, 0, 0]) := by
  have hk : ¬ key.length < 32 := by have := h.1; omega
  have hn : nonce.length ∈ Config.nonceLengths := (mem_nonceLengths _).mpr h.2
  simp [exec, execInit, hk, hn, hl, respond_eq, Opcode.byte, -mem_nonceLengths]

/-- The three ways INIT ends (R110 to R113). -/
theorem exec_init_cases (c : BitVec 64) (key nonce : List Byte) (s : State) :
    (∃ layout, initAccepted key nonce ∧ layoutOf (effectiveKeyNonce key nonce).2.length = some layout
      ∧ exec (.init c key nonce) s
        = .next ((((s.setS (initWords layout (effectiveKeyNonce key nonce).1 (effectiveKeyNonce key nonce).2 c)).setMode
            layout.mode).setPos 0).rspWrite [0x00, 0x10, 0, 0]))
    ∨ (¬ initAccepted key nonce ∧ key.length < 32
      ∧ exec (.init c key nonce) s = .next (s.rspWrite [0x01, 0x10, 0, 0]))
    ∨ (¬ initAccepted key nonce ∧ 32 ≤ key.length
      ∧ exec (.init c key nonce) s = .next (s.rspWrite [0x02, 0x10, 0, 0])) := by
  by_cases h : initAccepted key nonce
  · obtain ⟨l, hl⟩ := layoutOf_effective key nonce h
    exact .inl ⟨l, h, hl, exec_init_accepted c key nonce s h l hl⟩
  · by_cases hk : key.length < 32
    · exact .inr (.inl ⟨h, hk, exec_init_shortKey c key nonce s hk⟩)
    · exact .inr (.inr ⟨h, by omega, exec_init_badNonce c key nonce s (by omega) h⟩)

/-- A CRYPT whose output does not fit (R118 a). -/
theorem exec_crypt_tooSmall (olen : Word) (input : List Byte) (s : State) (h : olen.toNat < input.length) :
    exec (.crypt olen input) s = .next (s.rspWrite [0x03, 0x11, 0, 0]) := by
  simp [exec, execCrypt, h, raise_eq, ErrorKind.code, Opcode.byte]

/-- A CRYPT without a context (R118 b). -/
theorem exec_crypt_notReady (olen : Word) (input : List Byte) (s : State) (h : input.length ≤ olen.toNat)
    (hm : s.mode = .idle) : exec (.crypt olen input) s = .next (s.rspWrite [0x05, 0x11, 0, 0]) := by
  have h' : ¬ olen.toNat < input.length := by omega
  simp [exec, execCrypt, h', hm, raise_eq, ErrorKind.code, Opcode.byte]

/-- A CRYPT that runs its loop (R117). -/
theorem exec_crypt_loop (olen : Word) (input : List Byte) (s : State) (h : input.length ≤ olen.toNat)
    (hm : s.mode ≠ .idle) :
    exec (.crypt olen input) s
      = .next ((cryptLoop input s).2.rspWrite (0x00 :: 0x11 :: 0 :: 0 :: (cryptLoop input s).1)) := by
  have h' : ¬ olen.toNat < input.length := by omega
  simp [exec, execCrypt, h', hm, respond_eq, Opcode.byte]

/-- The three ways CRYPT ends (R117, R118). -/
theorem exec_crypt_cases (olen : Word) (input : List Byte) (s : State) :
    (olen.toNat < input.length ∧ exec (.crypt olen input) s = .next (s.rspWrite [0x03, 0x11, 0, 0]))
    ∨ (input.length ≤ olen.toNat ∧ s.mode = .idle
      ∧ exec (.crypt olen input) s = .next (s.rspWrite [0x05, 0x11, 0, 0]))
    ∨ (input.length ≤ olen.toNat ∧ s.mode ≠ .idle
      ∧ exec (.crypt olen input) s
        = .next ((cryptLoop input s).2.rspWrite (0x00 :: 0x11 :: 0 :: 0 :: (cryptLoop input s).1))) := by
  by_cases h : olen.toNat < input.length
  · exact .inl ⟨h, exec_crypt_tooSmall _ _ _ h⟩
  · by_cases hm : s.mode = .idle
    · exact .inr (.inl ⟨by omega, hm, exec_crypt_notReady _ _ _ (by omega) hm⟩)
    · exact .inr (.inr ⟨by omega, hm, exec_crypt_loop _ _ _ (by omega) hm⟩)

/-- All a step can be: nothing, an answer to an illegal header, or the command at the front of the stream (R43, R62). -/
theorem step_cases (s : State) :
    (decode s.cmd = .hold ∧ step s = .next s)
    ∨ (∃ hw rest, decode s.cmd = .illegal hw rest
        ∧ step s = .next ((s.setCmd rest).rspWrite [0x06, headerOpc hw, 0, 0]))
    ∨ (∃ i rest, decode s.cmd = .packet i rest ∧ step s = exec i (s.setCmd rest)) := by
  cases h : decode s.cmd with
  | hold => exact .inl ⟨rfl, by simp [step, h]⟩
  | illegal hw rest => exact .inr (.inl ⟨hw, rest, rfl, by simp [step, h, illegalCommand_eq]⟩)
  | packet i rest => exact .inr (.inr ⟨i, rest, rfl, by simp [step, h]⟩)

end Sys2Proof.Machine
end

