-- ==== Sys2Proof/Tests/Slice0.lean ====
section
/-! SUPPORT. The model's own tests: expected values come from spec/95_test_vectors.md (the vector is named at each test)
or from the spec's encoding tables; and, for every statement with hypotheses, a concrete state and operands that meet
them. -/

namespace Sys2Proof.Tests

open Sys2Proof Sys2Proof.Machine

/-! ### Helpers -/

/-- `n` zero bytes. -/
def zeros (n : Nat) : List Byte := List.replicate n 0

/-- The bytes `00 01 02 ...`, `n` of them, the vectors' `0001...`. -/
def seqBytes (n : Nat) : List Byte := (List.range n).map (BitVec.ofNat 8 ·)

/-- Sixteen words: those given, then zeros. -/
def blockOf (ws : List Word) : Block := Vector.ofFn fun i => ws.getD i.val 0

/-- The unit right after reset, with these bytes on its command stream. -/
def holding (bytes : List Byte) : State := State.reset.append bytes

/-- The response stream after one step; nothing when the step does not answer next. -/
def answer (s : State) : Option (List Byte) :=
  match step s with
  | .next t => some t.rsp
  | .fault _ => none
  | .refused _ => none

/-- The words of `S` after one step. -/
def wordsAfter (s : State) : Option (List Word) :=
  match step s with
  | .next t => some t.S.toList
  | .fault _ => none
  | .refused _ => none

/-- `S` of vector V20: zero key, zero 8-byte nonce, counter 0. -/
def zeroKeyWords : Block := blockOf [0x61707865, 0, 0, 0, 0, 0x3320646e, 0, 0, 0, 0, 0x79622d32, 0, 0, 0, 0, 0x6b206574]

/-- The state vector V20 leaves, in any `MODE`. -/
def fresh (m : Mode) : State := { State.reset with S := zeroKeyWords, mode := m }

/-- A context that has used one byte of the block of `zeroKeyWords`. -/
def started (m : Mode) : State :=
  { State.reset with S := ctrInc m zeroKeyWords, K := keyBlock zeroKeyWords, pos := 1, mode := m }

/-! ### WellFormed refuses each ill-formed term -/

theorem test_wf_hsalsa_key : (Instr.hsalsa (zeros 256) (zeros 16)).wf = false := by
  simp only [Instr.wf, declarable, zeros, List.length_replicate]; decide
theorem test_wf_hsalsa_nonce : (Instr.hsalsa (zeros 32) (zeros 256)).wf = false := by
  simp only [Instr.wf, declarable, zeros, List.length_replicate]; decide
theorem test_wf_init_key : (Instr.init 0 (zeros 256) (zeros 8)).wf = false := by
  simp only [Instr.wf, declarable, zeros, List.length_replicate]; decide
theorem test_wf_init_nonce : (Instr.init 0 (zeros 32) (zeros 256)).wf = false := by
  simp only [Instr.wf, declarable, zeros, List.length_replicate]; decide
theorem test_wf_crypt_input : (Instr.crypt 0 (zeros 0x100000000)).wf = false := by
  simp only [Instr.wf, sendable, zeros, List.length_replicate]; decide

/-! ### Decoding: words written out from 30_encoding.md R61 to R73 and 95_test_vectors.md sections 6 and 7 -/

/-- `QR 5, 9, 13, 1` (V10): `F1 = 16 b + a = 0x95`, `F2 = 16 d + c = 0x1d`. -/
theorem test_decode_qr :
    decode ([0x01, 0x95, 0x1d, 0x00] ++ ([0x04, 0x03, 0x02, 0x01] ++ zeros 60) ++ [0xaa])
      = .packet (.qr 5 9 13 1 (blockOf [0x01020304])) [0xaa] := by decide

theorem test_decode_permute :
    decode ([0x02, 0x00, 0x00, 0x00] ++ (zeros 60 ++ [0xef, 0xbe, 0xad, 0xde]))
      = .packet (.permute (blockOf (List.replicate 15 0 ++ [0xdeadbeef]))) [] := by decide

theorem test_decode_hsalsa :
    decode ([0x03, 0x02, 0x03, 0x00] ++ [0x11, 0x22] ++ [0x33, 0x44, 0x55] ++ [0x66])
      = .packet (.hsalsa [0x11, 0x22] [0x33, 0x44, 0x55]) [0x66] := by decide

/-- V27: the counter `0x0000000100000002` travels as `02 00 00 00 01 00 00 00`. -/
theorem test_decode_init :
    decode ([0x10, 0x20, 0x08, 0x00] ++ [0x02, 0x00, 0x00, 0x00, 0x01, 0x00, 0x00, 0x00] ++ seqBytes 32 ++ seqBytes 8)
      = .packet (.init 0x0000000100000002 (seqBytes 32) (seqBytes 8)) [] := by decide

/-- `ILEN = 2`, `OLEN = 0xffffffff`. -/
theorem test_decode_crypt :
    decode ([0x11, 0x00, 0x00, 0x00] ++ [0x02, 0x00, 0x00, 0x00] ++ [0xff, 0xff, 0xff, 0xff] ++ [0x48, 0x65] ++ [0x6c])
      = .packet (.crypt 0xffffffff [0x48, 0x65]) [0x6c] := by decide

theorem test_decode_destroy : decode [0x12, 0x00, 0x00, 0x00, 0x13] = .packet .destroy [0x13] := by decide
theorem test_decode_status : decode [0x13, 0x00, 0x00, 0x00] = .packet .status [] := by decide

/-- V60: an unassigned opcode, `RSV` not 0, and an unused field not 0. -/
theorem test_decode_illegal :
    decode [0x04, 0x00, 0x00, 0x00] = .illegal 0x00000004 []
    ∧ decode [0x01, 0x00, 0x00, 0x01] = .illegal 0x01000001 []
    ∧ decode [0x11, 0x00, 0x01, 0x00, 0xff] = .illegal 0x00010011 [0xff]
    ∧ decode [0x13, 0x00, 0x01, 0x00] = .illegal 0x00010013 [] := by decide

/-- V63: one byte short of V20's packet. -/
theorem test_decode_hold : decode ([0x10, 0x20, 0x08, 0x00] ++ zeros 47) = .hold := by decide

/-- A CRYPT packet whose length fields have not arrived (R76). -/
theorem test_decode_hold_lengths : decode ([0x11, 0x00, 0x00, 0x00] ++ zeros 7) = .hold := by decide

/-! ### One step of each command -/

/-- V2. -/
theorem test_qr : answer (holding ([0x01, 0x10, 0x32, 0x00] ++ [0x01] ++ zeros 63))
    = some ([0x00, 0x01, 0x00, 0x00] ++ [0x45, 0x81, 0x00, 0x08] ++ [0x80, 0x00, 0x00, 0x00] ++ [0x00, 0x02, 0x01, 0x00]
        ++ [0x00, 0x00, 0x50, 0x20] ++ zeros 48) := by decide

/-- V8 (b): `QR 0, 1, 0, 1`, repeated indices. -/
theorem test_qr_repeated : answer (holding ([0x01, 0x10, 0x10, 0x00] ++ [0x01, 0, 0, 0, 0x02] ++ zeros 59))
    = some ([0x00, 0x01, 0x00, 0x00] ++ [0xcc, 0x85, 0x0e, 0x9e] ++ [0x82, 0x61, 0xf0, 0x60] ++ zeros 56) := by decide

/-- V12, its first four words and its last. -/
theorem test_permute : (answer (holding ([0x02, 0x00, 0x00, 0x00] ++ [0x01] ++ zeros 63))).map
      (fun r => (r.take 20, r.drop 64))
    = some ([0x00, 0x02, 0x00, 0x00] ++ [0xb5, 0xc5, 0xd2, 0x1c] ++ [0x46, 0x00, 0xe0, 0x12] ++ [0x73, 0x66, 0xc9, 0x30]
        ++ [0x9c, 0xb8, 0xf7, 0x0c], [0xa3, 0xa6, 0xf5, 0x16]) := by decide +kernel

/-- V40. -/
theorem test_hsalsa : answer (holding ([0x03, 0x20, 0x10, 0x00] ++ zeros 48))
    = some ([0x00, 0x03, 0x00, 0x00, 0x35, 0x1f, 0x86, 0xfa, 0xa3, 0xb9, 0x88, 0x46, 0x8a, 0x85, 0x01, 0x22, 0xb6, 0x5b,
        0x0a, 0xce, 0xce, 0x9c, 0x48, 0x26, 0x80, 0x6a, 0xee, 0xe6, 0x3d, 0xe9, 0xc0, 0xda, 0x2b, 0xd7, 0xf9, 0x1e]) := by
  decide +kernel

/-- V59. -/
theorem test_hsalsa_size : answer (holding ([0x03, 0x20, 0x11, 0x00] ++ zeros 49)) = some [0x04, 0x03, 0, 0] := by decide

/-- V30: a 12-byte nonce, and the high half of the counter in `S[9]`. -/
theorem test_init_n12 : wordsAfter (holding ([0x10, 0x20, 0x0c, 0x00] ++ [0x05, 0, 0, 0, 0x07, 0, 0, 0] ++ seqBytes 32
      ++ seqBytes 12))
    = some [0x61707865, 0x03020100, 0x07060504, 0x0b0a0908, 0x0f0e0d0c, 0x3320646e, 0x03020100, 0x07060504,
        0x0b0a0908, 0x00000007, 0x79622d32, 0x13121110, 0x17161514, 0x1b1a1918, 0x1f1e1d1c, 0x6b206574] := by decide

/-- V53: InvalidKeySize before InvalidNonceSize. -/
theorem test_init_order : answer (holding ([0x10, 0x1f, 0x07, 0x00] ++ zeros 46)) = some [0x01, 0x10, 0, 0] := by decide

/-- V22: the first keystream byte of V20's context. -/
theorem test_crypt : answer ((fresh .n8).append [0x11, 0, 0, 0, 1, 0, 0, 0, 1, 0, 0, 0, 0])
    = some [0x00, 0x11, 0x00, 0x00, 0x9a] := by decide +kernel

/-- V58: OutputTooSmall before NotReady. -/
theorem test_crypt_order : answer (holding [0x11, 0, 0, 0, 2, 0, 0, 0, 1, 0, 0, 0, 0, 0]) = some [0x03, 0x11, 0, 0] := by
  decide

/-- P1, packet 5. -/
theorem test_destroy : wordsAfter ((fresh .n8).append [0x12, 0, 0, 0]) = some (List.replicate 16 0) := by decide

/-- V62: `SW = 0x00000502`. -/
theorem test_status : answer ({ fresh .n12 with pos := 5 }.append [0x13, 0, 0, 0])
    = some [0x00, 0x13, 0x00, 0x00, 0x02, 0x05, 0x00, 0x00] := by decide

/-- V64: the illegal header is answered and four bytes are consumed. -/
theorem test_illegal : answer (holding [0x11, 0x01, 0x00, 0x00, 0x04]) = some [0x06, 0x11, 0, 0] := by decide

/-- V24: the carry from `S[8]` into `S[9]`. -/
theorem test_counter_carry : (ctrInc .n8 ((zeroKeyWords.set 8 0xffffffff)))[9] = 1 := by decide

/-- V32: `S[9]` wraps without a carry into `S[8]`. -/
theorem test_counter_n12 : (ctrInc .n12 ((zeroKeyWords.set 8 0x0b0a0908).set 9 0xffffffff)).toList.drop 8
    = [0x0b0a0908, 0, 0x79622d32, 0, 0, 0, 0, 0x6b206574] := by decide

/-! ### Witnesses: the hypotheses of each statement, met by a concrete state and operands -/

theorem witness_RotationMovesEveryBitLeft :
    ((7 = 7 ∨ 7 = 9 ∨ 7 = 13 ∨ 7 = 18) ∧ 31 < 32 ∧ (rotl32 0x80000001 7).getLsbD 6 = true)
    ∧ ((18 = 7 ∨ 18 = 9 ∨ 18 = 13 ∨ 18 = 18) ∧ 0 < 32 ∧ (rotl32 0x80000001 18).getLsbD 18 = true) := by decide

theorem witness_ByteOrderIsLittleEndian :
    0 + 4 ≤ (zeros 4).length ∧ 4 + 4 ≤ (zeros 8).length ∧ 0 + 8 ≤ (zeros 8).length ∧ (zeros 64).length = 64 := by decide

theorem witness_QuarterRoundOfDistinctIndices :
    ([15, 12, 13, 14] : List (Fin 16)).Nodup ∧ (0 : Fin 16) ∉ ([15, 12, 13, 14] : List (Fin 16))
    ∧ (11 : Fin 16) ∉ ([15, 12, 13, 14] : List (Fin 16)) := by decide

theorem witness_DisjointQuarterRoundsCommute :
    (∀ i ∈ ([0, 4, 8, 12] : List (Fin 16)), i ∉ ([5, 9, 13, 1] : List (Fin 16)))
    ∧ ∀ i ∈ ([0, 0, 0, 0] : List (Fin 16)), i ∉ ([15, 15, 1, 15] : List (Fin 16)) := by decide

theorem witness_PermutationIsBijective : ([0, 1, 2, 3] : List (Fin 16)).Nodup := by decide

/-- The largest and the smallest index fields of QR. -/
theorem witness_OpcodeMapRowsAreDisjoint :
    (∃ r ∈ opcodeMap, r.selects 0x00ffff01) ∧ ∃ r ∈ opcodeMap, r.selects 0x00000001 := by decide

/-- Each form of a packet at its shortest and, where a length is declared, its longest. -/
theorem witness_EachPacketFormDecodesToItsCommand :
    (zeros 64).length = 64 ∧ (zeros 255).length ≤ 255 ∧ (zeros 0).length ≤ 255 ∧ (zeros 8).length = 8
    ∧ (zeros 4).length = 4 ∧ (zeros 0).length = (load32le (zeros 4) 0).toNat
    ∧ (zeros 3).length = (load32le [0x03, 0, 0, 0] 0).toNat := by decide +kernel

theorem witness_DecodeOfEncodeIsTheCommand :
    (Instr.hsalsa (zeros 255) (zeros 0)).wf = true ∧ (Instr.init 0 (zeros 0) (zeros 255)).wf = true
    ∧ (Instr.crypt 0xffffffff (zeros 3)).wf = true ∧ (Instr.qr 15 15 15 15 Block.zero).wf = true := by decide +kernel

theorem witness_EncodeOfDecodeIsThePacket :
    decode [0x11, 0, 0, 0, 1, 0, 0, 0, 0xff, 0xff, 0xff, 0xff, 0x2a, 0x99] = .packet (.crypt 0xffffffff [0x2a]) [0x99] := by
  decide

/-- Each of the three ways of being illegal, and a header that is not. -/
theorem witness_IllegalHeadersAreAnswered :
    (∃ hw, decode (holding [0x00, 0x00, 0x00, 0x00]).cmd = .illegal hw [])
    ∧ (∃ hw, decode (holding [0x10, 0x00, 0x00, 0x80]).cmd = .illegal hw [])
    ∧ (∃ hw, decode (holding [0x12, 0x01, 0x00, 0x00]).cmd = .illegal hw [])
    ∧ ∀ hw, decode (holding [0x13, 0x00, 0x00, 0x00]).cmd ≠ .illegal hw [] :=
  ⟨⟨0x00000000, by decide⟩, ⟨0x80000010, by decide⟩, ⟨0x00000112, by decide⟩, fun hw => by
    have : decode (holding [0x13, 0x00, 0x00, 0x00]).cmd = .packet .status [] := by decide
    rw [this]; exact Decoded.noConfusion⟩

theorem witness_StepRunsTheDecodedCommand :
    (Instr.init 0x0000000100000002 (seqBytes 32) (seqBytes 8)).wf = true
    ∧ (holding (encode (.init 0x0000000100000002 (seqBytes 32) (seqBytes 8)) ++ [0x13])).cmd
      = encode (.init 0x0000000100000002 (seqBytes 32) (seqBytes 8)) ++ [0x13] := by decide

/-- Three bytes; and each packet one byte short, CRYPT's also inside its length fields. -/
theorem witness_PartialPacketHolds :
    decode (holding [0x13]).cmd = .hold ∧ (holding (zeros 3)).cmd.length < 4
    ∧ 67 < (encode (.permute Block.zero)).length ∧ 51 < (encode (.init 0 (zeros 32) (zeros 8))).length
    ∧ 11 < (encode (.crypt 0 (zeros 1))).length ∧ 12 < (encode (.crypt 0 (zeros 1))).length
    ∧ 3 < (encode .status).length ∧ (Instr.crypt 0 (zeros 1)).wf = true
    ∧ (holding ((encode (.crypt 0 (zeros 1))).take 12)).cmd = (encode (.crypt 0 (zeros 1))).take 12 := by decide +kernel

theorem witness_LaterBytesDoNotChangeTheFrontPacket :
    decode [0x13, 0, 0, 0, 0x12] = .packet .status [0x12] ∧ decode [0, 0, 0, 0, 0x12] = .illegal 0 [0x12]
    ∧ decode (holding [0x12, 0, 0, 0]).cmd ≠ .hold
    ∧ step (holding [0x12, 0, 0, 0]) = .next { State.reset with rsp := [0x00, 0x12, 0x00, 0x00] } :=
  ⟨by decide, by decide, by decide, rfl⟩

theorem witness_RunOfPacketsIsTheFoldOfTheirCommands :
    ∀ i ∈ [Instr.init 0 (zeros 32) (zeros 8), .crypt 5 (zeros 5), .status, .destroy], i.wf = true := by decide

theorem witness_OneResponsePerPacket :
    decode (holding [0x13, 0, 0, 0]).cmd = .packet .status []
    ∧ decode (holding [0x13, 0, 0, 1]).cmd = .illegal 0x01000013 [] := by decide

theorem witness_ResponseLengthsFollowTheTable :
    expectedStatus .n8 (.crypt 3 (zeros 3)) = 0 ∧ expectedStatus .idle (.crypt 3 (zeros 3)) ≠ 0 := by decide

theorem witness_StatusCodesFollowTheErrorTable : decode (holding [0xff, 0, 0, 0]).cmd = .illegal 0x000000ff [] := by
  decide

/-- An error of a command at the front of the stream, and an illegal header there. -/
theorem witness_ErrorsOnlyAppendTheirResponse_step :
    decode (holding [0x11, 0, 0, 0, 1, 0, 0, 0, 0, 0, 0, 0, 0x2a, 0x12]).cmd = .packet (.crypt 0 [0x2a]) [0x12]
    ∧ expectedStatus .idle (.crypt 0 [0x2a]) ≠ 0 ∧ decode (holding [0x04, 0, 0, 0, 0x12]).cmd = .illegal 0x00000004 [0x12] := by
  decide

/-- The five error kinds a command can be answered with. -/
theorem witness_ErrorsOnlyAppendTheirResponse :
    expectedStatus .n8 (.init 0 (zeros 31) (zeros 8)) = 0x01 ∧ expectedStatus .n8 (.init 0 (zeros 32) (zeros 10)) = 0x02
    ∧ expectedStatus .idle (.crypt 2 (zeros 3)) = 0x03 ∧ expectedStatus .n8 (.hsalsa (zeros 31) (zeros 16)) = 0x04
    ∧ expectedStatus .idle (.crypt 0 (zeros 0)) = 0x05 := by decide

theorem witness_HsalsaAnswersTheDerivedKey : (zeros 32).length = 32 ∧ (zeros 16).length = 16 := by decide

theorem witness_HsalsaRejectsOtherSizes :
    ((zeros 33).length ≠ 32 ∨ (zeros 16).length ≠ 16) ∧ ((zeros 32).length ≠ 32 ∨ (zeros 15).length ≠ 16) := by decide

theorem witness_InitRejectsAShortKey :
    (zeros 31).length < 32 ∧ (zeros 0).length < 32 ∧ 32 ≤ (zeros 32).length
    ∧ ∃ t, exec (.init 0 (zeros 32) (zeros 7)) (fresh .n8) = .next t := ⟨by decide, by decide, by decide, _, rfl⟩

theorem witness_InitRejectsOtherNonceLengths :
    32 ≤ (zeros 32).length ∧ (zeros 7).length ∉ [8, 12, 16, 24] ∧ (zeros 25).length ∉ [8, 12, 16, 24] := by decide

/-- Every accepted nonce length, with the shortest and the longest key. -/
theorem witness_initAccepted :
    initAccepted (zeros 32) (zeros 8) ∧ initAccepted (zeros 255) (zeros 12) ∧ initAccepted (zeros 32) (zeros 16)
    ∧ initAccepted (zeros 255) (zeros 24) := by unfold initAccepted; decide +kernel

/-- `n` has 8 bytes for nonces of 8 and of 24 bytes, 12 for 12, 16 for 16. -/
theorem witness_InitLaysOutTheContext :
    initAccepted (zeros 32) (zeros 24) ∧ ((zeros 24).drop 16).length = 8 ∧ initAccepted (zeros 32) (zeros 12)
    ∧ (zeros 12).length = 12 ∧ initAccepted (zeros 32) (zeros 16) ∧ (zeros 16).length = 16 := by
  unfold initAccepted; decide

theorem witness_InitDependsOnItsOperandsAlone : initAccepted (seqBytes 40) (seqBytes 8) := by
  unfold initAccepted; decide

theorem witness_XSalsaInitIsHsalsaThenInit : (seqBytes 32).length = 32 ∧ (seqBytes 24).length = 24 := by decide

theorem witness_BlockGenerationAddsTheStateBack : (fresh .n16).mode ≠ .idle := by decide

theorem witness_CryptRefusals :
    (2 : Word).toNat < (zeros 3).length
    ∧ (zeros 0).length ≤ (0 : Word).toNat ∧ State.reset.mode = .idle := by decide

theorem witness_CryptOfNothingGeneratesNothing : (fresh .n12).mode ≠ .idle := by decide

/-- A context with a used block and one without; no bytes, and as many as the output holds; the largest position. -/
theorem witness_CryptXorsTheNextKeystreamBytes :
    (started .n8).mode ≠ .idle ∧ (fresh .n8).mode ≠ .idle ∧ (zeros 0).length ≤ (0 : Word).toNat
    ∧ (zeros 65).length ≤ (65 : Word).toNat ∧ 63 < 64
    ∧ blocksGenerated 63 1 = 0 ∧ blocksGenerated 63 2 = 1 ∧ blocksGenerated 0 64 = 1 ∧ blocksGenerated 0 65 = 2
    ∧ (2 : Word).toNat < (zeros 3).length ∧ (zeros 3).length ≤ (3 : Word).toNat ∧ State.reset.mode = .idle :=
  ⟨nofun, nofun, by decide, by decide +kernel, by decide, by decide, by decide, by decide +kernel,
    by decide +kernel, by decide, by decide, rfl⟩

theorem witness_CryptSplitsAnywhere :
    (fresh .n8).mode ≠ .idle ∧ (zeros 5).length ≤ (5 : Word).toNat ∧ (zeros 10).length ≤ (10 : Word).toNat
    ∧ (zeros 5).length + (zeros 10).length ≤ (15 : Word).toNat := by decide

theorem witness_CryptUndoesItself :
    initAccepted (seqBytes 32) (seqBytes 8) ∧ (zeros 15).length ≤ (15 : Word).toNat := by unfold initAccepted; decide

theorem witness_KeystreamIsIndependentOfTheData :
    (fresh .n8).mode ≠ .idle ∧ (zeros 15).length = (seqBytes 15).length ∧ (zeros 15).length ≤ (15 : Word).toNat
    ∧ (seqBytes 15).length ≤ (15 : Word).toNat := by decide

theorem witness_AdvancedCounterHasAClosedForm : Mode.n8 ≠ .idle ∧ Mode.n12 ≠ .idle ∧ Mode.n16 ≠ .idle := by decide

/-- At stream byte 0 of a fresh context, and at stream byte 1, inside a block. -/
theorem witness_KeystreamHasAClosedForm :
    initAccepted (zeros 32) (zeros 8) ∧ (fresh .n16).atStream .n16 zeroKeyWords 0
    ∧ (started .n16).atStream .n16 zeroKeyWords 1 ∧ (started .n8).atStream .n8 zeroKeyWords 1
    ∧ (zeros 3).length ≤ (3 : Word).toNat :=
  ⟨by unfold initAccepted; decide, ⟨rfl, rfl, rfl, fun h => absurd rfl h⟩, ⟨rfl, rfl, rfl, fun _ => rfl⟩,
    ⟨rfl, (by decide : ctrInc .n8 zeroKeyWords = ctrAdvance .n8 ((1 + 63) / 64) zeroKeyWords), rfl, fun _ =>
      congrArg keyBlock (by decide : zeroKeyWords = ctrAdvance .n8 (1 / 64) zeroKeyWords)⟩, by decide⟩

/-- A live context that holds, steps and is not at a DESTROY; a CRYPT that fits. -/
theorem witness_DestroyZeroisesTheContext :
    (started .n8).mode ≠ .idle ∧ (∃ t, step (started .n8) = .next t)
    ∧ (∀ rest, decode (started .n8).cmd ≠ .packet .destroy rest) ∧ (zeros 0).length ≤ (0 : Word).toNat :=
  ⟨nofun, ⟨_, rfl⟩, fun _ => nofun, by decide⟩

/-- A command of each kind that answers next; an INIT that fails; a CRYPT that changes nothing, each way. -/
theorem witness_CommandsWriteOnlyTheirObjects :
    (∃ t, exec .status (started .n8) = .next t) ∧ (∃ t, exec .destroy (started .n8) = .next t)
    ∧ (∃ t, exec (.init 0 (zeros 31) (zeros 8)) (started .n8) = .next t) ∧ ¬ initAccepted (zeros 31) (zeros 8)
    ∧ (∃ t, exec (.crypt 1 (zeros 1)) (started .n8) = .next t) ∧ (2 : Word).toNat < (zeros 3).length
    ∧ State.reset.mode = .idle :=
  ⟨⟨_, exec_status _⟩, ⟨_, exec_destroy _⟩, ⟨_, exec_init_shortKey 0 (zeros 31) (zeros 8) _ (by decide)⟩,
    by unfold initAccepted; decide, ⟨_, exec_crypt_loop 1 (zeros 1) _ (by decide) nofun⟩, by decide, rfl⟩

/-- A step that sets no mode, in every mode; a DESTROY; an INIT that succeeds. -/
theorem witness_ModeChangesOnlyByInitDestroyAndReset :
    (∀ m : Mode, ∃ t, step ((fresh m).append [0x13, 0, 0, 0]) = .next t)
    ∧ (∀ i rest, decode ((fresh .n8).append [0x13, 0, 0, 0]).cmd = .packet i rest → ¬ i.setsMode)
    ∧ (∃ t, exec .destroy (fresh .n8) = .next t)
    ∧ initAccepted (zeros 32) (zeros 12) ∧ ∃ t, exec (.init 0 (zeros 32) (zeros 12)) (fresh .n8) = .next t := by
  refine ⟨fun m => by cases m <;> exact ⟨_, rfl⟩, fun i rest h => ?_, ⟨_, exec_destroy _⟩, by unfold initAccepted; decide, ⟨_, rfl⟩⟩
  have e : decode ((fresh .n8).append [0x13, 0, 0, 0]).cmd = .packet .status [] := by decide
  rw [e] at h
  cases h
  exact id

/-- A STATUS in a context of each layout. -/
theorem witness_KeyAndNonceWordsStay :
    (∀ m : Mode, ∃ t, step ((fresh m).append [0x13, 0, 0, 0]) = .next t)
    ∧ (fresh .n12).mode ≠ .n8 ∧ (fresh .n16).mode ≠ .n8 ∧ (fresh .n16).mode ≠ .n12
    ∧ (8 : Fin 16) ≠ 9 ∧ (0 : Fin 16) ≠ 8 ∧ (15 : Fin 16) ≠ 9 :=
  ⟨fun m => by cases m <;> exact ⟨_, rfl⟩, nofun, nofun, nofun, by decide, by decide, by decide⟩

/-- A live context with a partly used block meets the invariants, and steps. -/
theorem witness_EveryStepKeepsTheInvariants :
    (started .n8).Inv ∧ (started .n12).Inv ∧ (started .n16).Inv ∧ ∃ t, step (started .n8) = .next t :=
  ⟨⟨nofun, fun _ => by unfold constantsHeld; decide, fun _ _ => ⟨zeroKeyWords, rfl, rfl⟩⟩,
    ⟨nofun, fun _ => by unfold constantsHeld; decide, fun _ _ => ⟨zeroKeyWords, rfl, rfl⟩⟩,
    ⟨nofun, fun _ => by unfold constantsHeld; decide, fun _ _ => ⟨zeroKeyWords, rfl, rfl⟩⟩, _, rfl⟩

/-- A state a run reaches: the host appends a STATUS after reset and the unit answers. -/
theorem witness_EveryReachableStateMeetsTheInvariants :
    Reachable { State.reset with rsp := [0x00, 0x13, 0, 0, 0, 0, 0, 0] } :=
  .step (.host (.append [0x13, 0, 0, 0]) .reset) rfl

/-- The same context with other streams. -/
theorem witness_AnswerIsDeterminedByContextAndCommand :
    (started .n8).sameContext { started .n8 with cmd := [0x13], rsp := [0xff] } := ⟨rfl, rfl, rfl, rfl⟩

/-- Two contexts with other keys, in the same mode and position. -/
theorem witness_SecretsReachNoAnswerButCrypts :
    (∀ olen input, Instr.status ≠ .crypt olen input)
    ∧ ((fresh .n8).setS (zeroKeyWords.set 1 0xffffffff)).mode = (fresh .n8).mode
    ∧ ((fresh .n8).setS (zeroKeyWords.set 1 0xffffffff)).pos = (fresh .n8).pos := ⟨nofun, rfl, rfl⟩

theorem witness_StaleKeystreamIsUnobservable : (fresh .n8).pos = 0 := rfl

/-- An INIT that fails, a CRYPT and a DESTROY from reset. -/
theorem witness_NoContextWithoutInit :
    State.reset.mode = .idle ∧ ∀ c key nonce, initAccepted key nonce →
      Instr.init c key nonce ∉ [Instr.init 0 (zeros 31) (zeros 8), .crypt 1 (zeros 1), .destroy] := by
  refine ⟨rfl, fun c key nonce h hm => ?_⟩
  have hk := h.1
  simp only [List.mem_cons, Instr.init.injEq, reduceCtorEq, List.not_mem_nil, or_false, or_self] at hm
  rw [hm.2.1] at hk
  exact absurd hk (by decide)

end Sys2Proof.Tests
end

section
/-! PROOFS. The 32-bit rotation (00_scope.md R9): the value of the formula and where each bit goes, at any amount between
0 and 32, then the statement at the four amounts of the unit. -/

namespace Sys2Proof.Proofs

open Sys2Proof Sys2Proof.Machine

/-- The bits that leave at the top fit below the ones that were moved up, so R9's sum needs no reduction modulo
`2^32`. -/
theorem shiftedParts_lt (w : Word) (n : Nat) (h : n < 32) :
    w.toNat * 2 ^ n % 2 ^ 32 + w.toNat / 2 ^ (32 - n) < 2 ^ 32 := by
  have width : 2 ^ 32 = 2 ^ (32 - n) * 2 ^ n := by rw [← pow_add, Nat.sub_add_cancel h.le]
  have low : w.toNat % 2 ^ (32 - n) < 2 ^ (32 - n) := Nat.mod_lt _ (by positivity)
  have high : w.toNat / 2 ^ (32 - n) < 2 ^ n := Nat.div_lt_of_lt_mul (width ▸ w.isLt)
  calc w.toNat * 2 ^ n % 2 ^ 32 + w.toNat / 2 ^ (32 - n)
      = 2 ^ n * (w.toNat % 2 ^ (32 - n)) + w.toNat / 2 ^ (32 - n) := by
        rw [width, Nat.mul_mod_mul_right, Nat.mul_comm]
    _ < 2 ^ (32 - n) * 2 ^ n := Nat.mul_add_lt_mul_of_lt_of_lt low high
    _ = 2 ^ 32 := width.symm

/-- The rotation as a number is R9's sum. -/
theorem rotl32_toNat (w : Word) (n : Nat) (h : n < 32) :
    (rotl32 w n).toNat = w.toNat * 2 ^ n % 2 ^ 32 + w.toNat / 2 ^ (32 - n) := by
  have up : (w <<< n).toNat = w.toNat * 2 ^ n % 2 ^ 32 := by
    rw [BitVec.toNat_shiftLeft, Nat.shiftLeft_eq]
  have down : (w >>> (32 - n)).toNat = w.toNat / 2 ^ (32 - n) := by
    rw [BitVec.toNat_ushiftRight, Nat.shiftRight_eq_div_pow]
  rw [rotl32_eq, BitVec.toNat_add_of_lt (by rw [up, down]; exact shiftedParts_lt w n h), up, down]

/-- A bit that stays inside the word moves up by `n`; one that leaves at the top comes back at the bottom. -/
theorem rotl32_getLsbD (w : Word) (n i : Nat) (h0 : 0 < n) (h : n < 32) (hi : i < 32) :
    (rotl32 w n).getLsbD ((i + n) % 32) = w.getLsbD i := by
  rw [rotl32_eq_rotateLeft w n h0 h, BitVec.getLsbD_rotateLeft_of_le h]
  by_cases stays : i + n < 32
  · simp [Nat.mod_eq_of_lt stays, stays]
  · have wraps : (i + n) % 32 = i + n - 32 := by omega
    have below : i + n - 32 < n := by omega
    have source : 32 - n + (i + n - 32) = i := by omega
    simp [wraps, below, source]

/-- Settles O1: the four amounts of the unit lie between 0 and 32, where the value and the bit movement hold. -/
theorem rotationMovesEveryBitLeft : Obligations.RotationMovesEveryBitLeft := by
  intro w n hn
  have pos : 0 < n := by omega
  have lt : n < 32 := by omega
  exact ⟨rotl32_toNat w n lt, fun i hi => rotl32_getLsbD w n i pos lt hi⟩

end Sys2Proof.Proofs
end

section
/-! PROOFS. `MODE` and reset (10_state.md R27, R35; 70_reset_and_hazards.md R180): who writes `MODE`, then what the reset
event leaves in every object. -/

namespace Sys2Proof.Proofs

open Sys2Proof Sys2Proof.Machine

/-- Only DESTROY and an INIT that succeeds write `MODE` (R27, R166): every other answer is a response and, for CRYPT, a
run of the byte loop, which keeps `MODE`. -/
theorem exec_mode_of_not_setsMode {i : Instr} {s t : State} (hi : ¬ i.setsMode) (h : exec i s = .next t) :
    t.mode = s.mode := by
  cases i with
  | qr a b c d x => cases (exec_qr a b c d x s).symm.trans h; rfl
  | permute x => cases (exec_permute x s).symm.trans h; rfl
  | hsalsa key nonce =>
    cases (exec_hsalsa key nonce s).symm.trans h
    split <;> rfl
  | init c key nonce =>
    obtain ⟨_, accepted, -, -⟩ | ⟨-, -, e⟩ | ⟨-, -, e⟩ := exec_init_cases c key nonce s
    · exact absurd accepted hi
    all_goals cases e.symm.trans h; rfl
  | crypt olen input =>
    obtain ⟨-, e⟩ | ⟨-, -, e⟩ | ⟨-, -, e⟩ := exec_crypt_cases olen input s <;> cases e.symm.trans h
    · rfl
    · rfl
    · exact cryptLoop_mode input s
  | destroy => exact absurd trivial hi
  | status => cases (exec_status s).symm.trans h; rfl

/-- A step whose front is no DESTROY and no INIT that succeeds keeps `MODE`; a hold and an illegal header are such
fronts. -/
theorem step_mode_of_not_setsMode {s t : State} (h : step s = .next t)
    (hi : ∀ i rest, decode s.cmd = .packet i rest → ¬ i.setsMode) : t.mode = s.mode := by
  obtain ⟨-, e⟩ | ⟨_, _, -, e⟩ | ⟨i, rest, front, e⟩ := step_cases s
  · cases e.symm.trans h; rfl
  · cases e.symm.trans h; rfl
  · exact (exec_mode_of_not_setsMode (hi i rest front) (e.symm.trans h)).trans (s.setCmd_mode rest)

/-- The `MODE` an accepted nonce length stands for: a 24-byte nonce is reduced to 8 bytes and gives N8 (R23, R113). -/
theorem layoutOf_effective_mode {key nonce : List Byte} {layout : Layout}
    (hl : layoutOf (effectiveKeyNonce key nonce).2.length = some layout) :
    layout.mode = if nonce.length = 12 then .n12 else if nonce.length = 16 then .n16 else .n8 := by
  by_cases reduced : nonce.length = 24
  · rw [effective_length key nonce reduced, layoutOf_8] at hl
    cases hl
    simp [reduced, Layout.mode]
  · rw [effective_plain key nonce reduced] at hl
    obtain ⟨hn, rfl⟩ | ⟨hn, rfl⟩ | ⟨hn, rfl⟩ := layoutOf_eq_some hl <;> simp [hn, Layout.mode]

/-- An INIT that succeeds leaves the `MODE` of its nonce length (R27, R113). -/
theorem exec_init_mode {c : BitVec 64} {key nonce : List Byte} {s t : State} (accepted : initAccepted key nonce)
    (h : exec (.init c key nonce) s = .next t) :
    t.mode = if nonce.length = 12 then .n12 else if nonce.length = 16 then .n16 else .n8 := by
  obtain ⟨layout, hl⟩ := layoutOf_effective key nonce accepted
  cases (exec_init_accepted c key nonce s accepted layout hl).symm.trans h
  exact layoutOf_effective_mode hl

/-- DESTROY leaves IDLE (R27, R121). -/
theorem exec_destroy_mode {s t : State} (h : exec .destroy s = .next t) : t.mode = .idle := by
  cases (exec_destroy s).symm.trans h; rfl

/-- Of the host's moves only reset writes `MODE` (R27, R57). -/
theorem hostMove_mode (m : HostMove) (s : State) : (m.apply s).mode = if m = .reset then .idle else s.mode := by
  cases m with
  | append bytes => exact State.append_mode s bytes
  | drain n => exact State.drain_mode s n
  | reset => rfl

/-- Settles O46: the codes of R27, then its writers one by one. -/
theorem modeChangesOnlyByInitDestroyAndReset : Obligations.ModeChangesOnlyByInitDestroyAndReset :=
  ⟨⟨rfl, rfl, rfl, rfl⟩, fun _ _ => step_mode_of_not_setsMode, fun _ _ => exec_destroy_mode,
    fun _ _ _ _ _ => exec_init_mode, hostMove_mode⟩

/-- Every word of the zero block is 0 (R35). -/
@[simp] theorem zeroBlock_getElem (i : Nat) (hi : i < 16) : Block.zero[i] = 0 := by
  simp [Block.zero]

/-- DESTROY leaves the context reset leaves (R35, R121). -/
theorem exec_destroy_sameContext_reset (s : State) :
    ∃ t : State, exec .destroy s = .next t ∧ State.reset.sameContext t :=
  ⟨_, exec_destroy s, by simp [State.sameContext, zeroise_eq]⟩

/-- The reset event leaves the reset state, whatever stood before it (R180). -/
@[simp] theorem apply_reset (s : State) : HostMove.reset.apply s = State.reset := rfl

/-- After the reset event the command stream holds what is appended next and nothing older (R180). -/
theorem append_reset_cmd (s : State) (bytes : List Byte) : ((HostMove.reset.apply s).append bytes).cmd = bytes := by
  rw [apply_reset, State.append_cmd, State.reset_cmd, List.nil_append]

/-- Settles O44: the reset values of R35 object by object, then the reset event, which leaves them and empty streams, and
DESTROY, which leaves the same context. -/
theorem resetLeavesEveryObjectCleared : Obligations.ResetLeavesEveryObjectCleared := by
  have words : ∀ i : Fin 16, State.reset.S[i] = 0 ∧ State.reset.K[i] = 0 := by simp
  have idleStatus : statusWord State.reset.mode State.reset.pos = 0 := by decide
  exact ⟨words, State.reset_pos, State.reset_mode, idleStatus, State.reset_cmd, State.reset_rsp, apply_reset,
    exec_destroy_sameContext_reset, append_reset_cmd⟩

end Sys2Proof.Proofs
end

section
/-! PROOFS. Responses (30_encoding.md R74): the packet's first byte is the opcode its response echoes, a command is
answered with one response of the status R158 gives it, and so one step answers a packet or an illegal header with
exactly one response. -/

namespace Sys2Proof.Proofs

open Sys2Proof Sys2Proof.Machine

/-- The opcode field of a header word is the first byte it was loaded from (R61). -/
@[simp] theorem headerOpc_load32le (b : List Byte) (o : Nat) : headerOpc (load32le b o) = byteAt b o := by
  have lt := (byteAt b o).isLt
  apply BitVec.eq_of_toNat_eq
  simp only [headerOpc, BitVec.extractLsb'_toNat, load32le_toNat, Nat.shiftRight_zero]
  omega

/-- Every row of the opcode map compares all eight bits of the opcode, with the byte of the row's command (R71). -/
theorem opcodeMap_opcode {r : OpcodeRow} (hr : r ∈ opcodeMap) :
    headerOpc r.mask = BitVec.allOnes 8 ∧ headerOpc r.value = r.op.byte := by
  have rows : ∀ r ∈ opcodeMap, headerOpc r.mask = BitVec.allOnes 8 ∧ headerOpc r.value = r.op.byte := by decide
  exact rows r hr

/-- A header word that selects a row carries the opcode of the row (R62 step 2, R71). -/
theorem headerOpc_of_selectRow {hw : Word} {op : Opcode} (h : selectRow hw = some op) : headerOpc hw = op.byte := by
  obtain ⟨r, found, rfl⟩ := Option.map_eq_some_iff.mp h
  obtain ⟨mask, value⟩ := opcodeMap_opcode (List.mem_of_find?_eq_some found)
  have selected : hw &&& r.mask = r.value := by simpa [OpcodeRow.selects] using List.find?_some found
  calc headerOpc hw
      = headerOpc hw &&& headerOpc r.mask := by rw [mask, BitVec.and_allOnes]
    _ = headerOpc (hw &&& r.mask) := BitVec.extractLsb'_and.symm
    _ = r.op.byte := by rw [selected, value]

/-- The command assembled for a row has the opcode of the row. -/
theorem assemble_opcodeByte (op : Opcode) (hw : Word) (body : List Byte) :
    (assemble op hw body).opcodeByte = op.byte := by
  cases op <;> rfl

/-- The first byte of a packet is the opcode of its command (R61, R71). -/
theorem byteAt_zero_of_decode_packet {bytes rest : List Byte} {i : Instr} (h : decode bytes = .packet i rest) :
    byteAt bytes 0 = i.opcodeByte := by
  obtain ⟨-, op, n, row, -, -, rfl, -⟩ := decode_eq_packet h
  rw [assemble_opcodeByte, ← headerOpc_of_selectRow row, headerOpc_load32le]

/-- A whole packet at the front of the stream is taken off and its command runs (R62). -/
theorem step_of_packet {s : State} {i : Instr} {rest : List Byte} (h : decode s.cmd = .packet i rest) :
    step s = exec i (s.setCmd rest) := by
  obtain ⟨e, -⟩ | ⟨_, _, e, -⟩ | ⟨_, _, e, run⟩ := step_cases s <;> cases e.symm.trans h
  exact run

/-- An illegal header at the front of the stream is taken off and answered with its first byte (R72, R157). -/
theorem step_of_illegal {s : State} {hw : Word} {rest : List Byte} (h : decode s.cmd = .illegal hw rest) :
    step s = .next ((s.setCmd rest).rspWrite [0x06, byteAt s.cmd 0, 0, 0]) := by
  obtain ⟨e, -⟩ | ⟨_, _, e, run⟩ | ⟨_, _, e, -⟩ := step_cases s <;> cases e.symm.trans h
  obtain ⟨-, rfl, -, -⟩ := decode_eq_illegal h
  rw [run, headerOpc_load32le]

/-- INIT of operands it accepts has status 0 (R113). -/
theorem expectedStatus_init_of_accepted {key nonce : List Byte} (mode : Mode) (c : BitVec 64)
    (accepted : initAccepted key nonce) : expectedStatus mode (.init c key nonce) = 0x00 := by
  obtain ⟨longKey, size⟩ := accepted
  exact (if_neg (Nat.not_lt.mpr longKey)).trans (if_pos size)

/-- INIT with a key long enough and operands it does not accept has the status of a bad nonce (R112). -/
theorem expectedStatus_init_of_badNonce {key nonce : List Byte} (mode : Mode) (c : BitVec 64)
    (longKey : 32 ≤ key.length) (rejected : ¬ initAccepted key nonce) :
    expectedStatus mode (.init c key nonce) = 0x02 :=
  (if_neg (Nat.not_lt.mpr longKey)).trans (if_neg fun size => rejected ⟨longKey, size⟩)

/-- CRYPT of an input that fits has the status its `MODE` gives it (R117, R118). -/
theorem expectedStatus_crypt_of_fits {olen : Word} {input : List Byte} (mode : Mode)
    (fits : input.length ≤ olen.toNat) :
    expectedStatus mode (.crypt olen input) = if mode = .idle then 0x05 else 0x00 :=
  if_neg (Nat.not_lt.mpr fits)

/-- The status of a command is a code of R158 below the one of an illegal header. -/
theorem expectedStatus_toNat_le (mode : Mode) (i : Instr) : (expectedStatus mode i).toNat ≤ 5 := by
  cases i with
  | qr | permute | destroy | status => exact Nat.zero_le 5
  | hsalsa | init | crypt =>
    simp only [expectedStatus]
    split_ifs <;> decide

/-- The command is answered with its error: four bytes, and nothing else written (R150). -/
def AnswersError (i : Instr) (s : State) : Prop :=
  expectedStatus s.mode i ≠ 0
    ∧ exec i s = .next (s.rspWrite [expectedStatus s.mode i, i.opcodeByte, 0, 0])

/-- The command is answered with success: whatever it does to the context, it leaves the command stream alone and
appends one response, whose body has the length of R75. -/
def AnswersSuccess (i : Instr) (s : State) : Prop :=
  expectedStatus s.mode i = 0 ∧ ∃ (t : State) (body : List Byte), t.cmd = s.cmd ∧ t.rsp = s.rsp
    ∧ body.length = i.successBodyBytes ∧ exec i s = .next (t.rspWrite (0x00 :: i.opcodeByte :: 0 :: 0 :: body))

/-- A response of a status that is not 0, when it is the one R158 gives the command, is the command's error. -/
theorem AnswersError.of_status {i : Instr} {s : State} {st : Byte} (status : expectedStatus s.mode i = st)
    (error : st ≠ 0) (run : exec i s = .next (s.rspWrite [st, i.opcodeByte, 0, 0])) : AnswersError i s := by
  subst status
  exact ⟨error, run⟩

/-- The two ways a command is answered, by the status R158 gives it. -/
theorem exec_answer (i : Instr) (s : State) : AnswersError i s ∨ AnswersSuccess i s := by
  cases i with
  | qr a b c d x => exact .inr ⟨rfl, s, _, rfl, rfl, length_bytesLe _, exec_qr a b c d x s⟩
  | permute x => exact .inr ⟨rfl, s, _, rfl, rfl, length_bytesLe _, exec_permute x s⟩
  | hsalsa key nonce =>
    have run := exec_hsalsa key nonce s
    by_cases sizes : key.length = 32 ∧ nonce.length = 16
    · rw [if_pos sizes] at run
      exact .inr ⟨if_pos sizes, s, _, rfl, rfl, length_hsalsa20 key nonce, run⟩
    · rw [if_neg sizes] at run
      exact .inl (.of_status (if_neg sizes) (by decide) run)
  | init c key nonce =>
    obtain ⟨_, accepted, -, run⟩ | ⟨-, short, run⟩ | ⟨rejected, long, run⟩ := exec_init_cases c key nonce s
    · refine .inr ⟨expectedStatus_init_of_accepted s.mode c accepted, _, [], ?_, ?_, rfl, run⟩ <;> rfl
    · exact .inl (.of_status (if_pos short) (by decide) run)
    · exact .inl (.of_status (expectedStatus_init_of_badNonce s.mode c long rejected) (by decide) run)
  | crypt olen input =>
    obtain ⟨small, run⟩ | ⟨fits, idle, run⟩ | ⟨fits, live, run⟩ := exec_crypt_cases olen input s
    · exact .inl (.of_status (if_pos small) (by decide) run)
    · exact .inl (.of_status ((expectedStatus_crypt_of_fits s.mode fits).trans (if_pos idle)) (by decide) run)
    · exact .inr ⟨(expectedStatus_crypt_of_fits s.mode fits).trans (if_neg live), _, _, cryptLoop_cmd input s,
        cryptLoop_rsp input s, cryptLoop_length input s, run⟩
  | destroy => exact .inr ⟨rfl, zeroise s, [], rfl, rfl, rfl, exec_destroy s⟩
  | status => exact .inr ⟨rfl, s, _, rfl, rfl, rfl, exec_status s⟩

/-- A command appends one response of R74's form and leaves the command stream alone; on an error the body is empty and
the context is unchanged. -/
theorem exec_response (i : Instr) (s : State) : ∃ (t : State) (body : List Byte), exec i s = .next t
    ∧ t.cmd = s.cmd ∧ t.rsp = s.rsp ++ (expectedStatus s.mode i :: i.opcodeByte :: 0 :: 0 :: body)
    ∧ (expectedStatus s.mode i ≠ 0 → body = [] ∧ s.sameContext t) := by
  obtain ⟨-, run⟩ | ⟨ok, t, body, cmd, rsp, -, run⟩ := exec_answer i s
  · exact ⟨_, [], run, rfl, rfl, fun _ => ⟨rfl, rfl, rfl, rfl, rfl⟩⟩
  · exact ⟨_, body, run, cmd, by rw [State.rspWrite_rsp, rsp, ok], fun error => absurd ok error⟩

/-- Settles O21: a packet is answered by its command, whose opcode is the packet's first byte; an illegal header is
answered with the code of R157. -/
theorem oneResponsePerPacket : Obligations.OneResponsePerPacket := by
  rintro s rest (⟨i, front⟩ | ⟨hw, front⟩)
  · obtain ⟨t, body, run, cmd, rsp, error⟩ := exec_response i (s.setCmd rest)
    refine ⟨t, expectedStatus s.mode i, body, (step_of_packet front).trans run, cmd, ?_, ?_, ?_, ?_, error⟩
    · rw [byteAt_zero_of_decode_packet front]
      exact rsp
    · intro j same
      cases front.symm.trans same
      rfl
    · intro _ illegal
      cases front.symm.trans illegal
    · exact (expectedStatus_toNat_le s.mode i).trans (by decide)
  · refine ⟨_, 0x06, [], step_of_illegal front, rfl, rfl, ?_, fun _ _ => rfl, by decide, fun _ => ?_⟩
    · intro _ packet
      cases front.symm.trans packet
    · exact ⟨rfl, rfl, rfl, rfl, rfl⟩

end Sys2Proof.Proofs
end

section
/-! PROOFS. The permutation core (40_permutation.md): the quarter-round as its four statements, the order of the
quarter-rounds and double rounds, and the command QR. -/

namespace Sys2Proof.Proofs

open Sys2Proof Sys2Proof.Machine

/-- One statement of a quarter-round, word by word, in the form R90 writes it. -/
theorem mixWord_getElem_fin (x : Block) (t u v : Fin 16) (n : Nat) (i : Fin 16) :
    (mixWord x t u v n)[i] = if i = t then x[t] ^^^ rotl32 (add32 x[u] x[v]) n else x[i] := by
  simp only [Fin.getElem_fin, mixWord_getElem, add32_eq, Fin.ext_iff, eq_comm]

/-- Settles O3: the intermediate arrays are the ones the first three statements leave. Each statement reads and writes
one array, so which of the four indices are equal does not matter. -/
theorem quarterRoundRunsItsFourStatements : Obligations.QuarterRoundRunsItsFourStatements := by
  intro x a b c d
  let x1 := mixWord x b a d Config.rotB
  let x2 := mixWord x1 c b a Config.rotC
  let x3 := mixWord x2 d c b Config.rotD
  exact ⟨x1, x2, x3, mixWord_getElem_fin x b a d _, mixWord_getElem_fin x1 c b a _, mixWord_getElem_fin x2 d c b _,
    mixWord_getElem_fin x3 a d c _⟩

/-- Settles O5: the quadruples listed are the column quadruples followed by the row quadruples, and ten is the number of
double rounds. -/
theorem permutationIsTenDoubleRounds : Obligations.PermutationIsTenDoubleRounds :=
  ⟨dround_eq, drounds_eq_iterate Config.doubleRounds⟩

/-- A rotation of 0 is 0. -/
@[simp] theorem rotl32_zero (n : Nat) : rotl32 0#32 n = 0#32 := by
  simp [rotl32_eq]

/-- A statement of a quarter-round leaves the zero array as it is: it mixes the rotation of `0 + 0` into a 0. -/
theorem mixWord_zero (t u v : Fin 16) (n : Nat) : mixWord Block.zero t u v n = Block.zero := by
  ext1 i hi
  simp [mixWord_getElem]

/-- A quarter-round leaves the zero array as it is, because each of its statements does (R91). -/
theorem quarterRound_zero (a b c d : Fin 16) : quarterRound Block.zero a b c d = Block.zero := by
  simp only [quarterRound, mixWord_zero]

/-- Settles O8: what QR answers and the length of its packet are laws of the model; the packet's bytes are the encoder's
own form. -/
theorem qrAnswersTheQuarterRound : Obligations.QrAnswersTheQuarterRound :=
  ⟨fun a b c d x s => ⟨exec_qr a b c d x s, rfl, Laws.EncodedLength.qr a b c d x⟩, quarterRound_zero⟩

end Sys2Proof.Proofs
end

section
/-! PROOFS. INIT (41_cipher_context.md R110 to R114): its two refusals, then the context a successful INIT lays out and
that its operands alone determine it. -/

namespace Sys2Proof.Proofs

open Sys2Proof Sys2Proof.Machine

/-- Settles O27: a short key ends INIT at its first test; INIT's other two answers have status 02 and 00. -/
theorem initRejectsAShortKey : Obligations.InitRejectsAShortKey := by
  intro c key nonce s
  refine ⟨exec_init_shortKey c key nonce s, fun long t body run same => ?_⟩
  obtain ⟨_, -, -, e⟩ | ⟨-, short, -⟩ | ⟨-, -, e⟩ := exec_init_cases c key nonce s
  · cases e.symm.trans run
    simp at same
  · exact absurd short (Nat.not_lt.mpr long)
  · cases e.symm.trans run
    simp at same

/-- Settles O28: the lengths listed are those of an INIT that succeeds. -/
theorem initRejectsOtherNonceLengths : Obligations.InitRejectsOtherNonceLengths := by
  intro c key nonce s long size
  have rejected : ¬ initAccepted key nonce := fun accepted => size (by simpa using accepted.2)
  exact exec_init_badNonce c key nonce s long rejected

/-- The effective key and nonce as the first and the last bytes of the operands (R110, R113). -/
theorem effectiveKeyNonce_eq (key nonce : List Byte) : effectiveKeyNonce key nonce
    = (if nonce.length = 24 then hsalsa20 (key.take 32) (nonce.take 16) else key.take 32,
        if nonce.length = 24 then nonce.drop 16 else nonce) := by
  by_cases reduced : nonce.length = 24
  · have whole : nonce.take 24 = nonce := List.take_of_length_le reduced.le
    simp [effective_reduced key nonce reduced, reduced, slice, whole]
  · simp [effective_plain key nonce reduced, reduced, slice]

section Layout

variable (k : List Byte) (w6 w7 w8 w9 : Word)

/-- The layout has the constant words in place (R22). -/
theorem layoutWords_constants : constantsHeld (layoutWords k w6 w7 w8 w9) := ⟨rfl, rfl, rfl, rfl⟩

/-- The layout has the key words at 1 to 4 and 11 to 14, in order (R21). -/
theorem layoutWords_key (i : Fin 4) :
    (layoutWords k w6 w7 w8 w9)[1 + i.val] = load32le k (4 * i.val)
      ∧ (layoutWords k w6 w7 w8 w9)[11 + i.val] = load32le k (16 + 4 * i.val) :=
  match i with
  | 0 => ⟨rfl, rfl⟩
  | 1 => ⟨rfl, rfl⟩
  | 2 => ⟨rfl, rfl⟩
  | 3 => ⟨rfl, rfl⟩

@[simp] theorem layoutWords_six : (layoutWords k w6 w7 w8 w9)[6] = w6 := rfl
@[simp] theorem layoutWords_seven : (layoutWords k w6 w7 w8 w9)[7] = w7 := rfl
@[simp] theorem layoutWords_eight : (layoutWords k w6 w7 w8 w9)[8] = w8 := rfl
@[simp] theorem layoutWords_nine : (layoutWords k w6 w7 w8 w9)[9] = w9 := rfl

end Layout

/-- The three layouts differ in words 8 and 9 only: words 6 and 7 hold the first eight bytes of every nonce (R23). -/
theorem initWords_eq_layoutWords (layout : Layout) (k n : List Byte) (c : BitVec 64) :
    ∃ w8 w9, initWords layout k n c = layoutWords k (load32le n 0) (load32le n 4) w8 w9 := by
  cases layout <;> exact ⟨_, _, rfl⟩

theorem counterLo_toNat (c : BitVec 64) : (counterLo c).toNat = c.toNat % 2 ^ 32 := by
  simp [counterLo, BitVec.extractLsb'_toNat]

theorem counterHi_toNat (c : BitVec 64) : (counterHi c).toNat = c.toNat / 2 ^ 32 := by
  have := c.isLt
  simp only [counterHi, BitVec.extractLsb'_toNat, Nat.shiftRight_eq_div_pow]
  omega

/-- Settles O29: an INIT that succeeds writes the words of the effective key and nonce; constants, key words and the
first two nonce words stand in every layout, and the layout of the effective nonce's length fixes `MODE` and the other
two words. -/
theorem initLaysOutTheContext : Obligations.InitLaysOutTheContext := by
  intro c key nonce s accepted k n
  obtain ⟨layout, hl⟩ := layoutOf_effective key nonce accepted
  have run := exec_init_accepted c key nonce s accepted layout hl
  rw [effectiveKeyNonce_eq] at run hl
  change layoutOf n.length = some layout at hl
  obtain ⟨w8, w9, words⟩ := initWords_eq_layoutWords layout k n c
  refine ⟨_, run, ?constants, ?keyWords, ?six, ?seven, ?n8, ?n12, ?n16, rfl, rfl, rfl, rfl⟩
  case constants => exact words ▸ layoutWords_constants k _ _ w8 w9
  case keyWords => exact words ▸ layoutWords_key k _ _ w8 w9
  case six => exact words ▸ layoutWords_six k _ _ w8 w9
  case seven => exact words ▸ layoutWords_seven k _ _ w8 w9
  case n8 =>
    intro h
    rw [h, layoutOf_8] at hl
    cases hl
    exact ⟨rfl, counterLo_toNat c, counterHi_toNat c⟩
  case n12 =>
    intro h
    rw [h, layoutOf_12] at hl
    cases hl
    exact ⟨rfl, rfl, counterHi_toNat c⟩
  case n16 =>
    intro h
    rw [h, layoutOf_16] at hl
    cases hl
    exact ⟨rfl, rfl, rfl⟩

/-- A layout's `MODE` is never IDLE (R23, R27). -/
theorem layout_mode_ne_idle (layout : Layout) : layout.mode ≠ .idle := by
  cases layout <;> exact Mode.noConfusion

/-- Settles O30: the state before an INIT that succeeds enters neither the words nor `POS` nor `MODE` it writes. -/
theorem initDependsOnItsOperandsAlone : Obligations.InitDependsOnItsOperandsAlone := by
  intro c key nonce s s' accepted
  obtain ⟨layout, hl⟩ := layoutOf_effective key nonce accepted
  have run := fun u => exec_init_accepted c key nonce u accepted layout hl
  exact ⟨_, _, _, run s, run s', rfl, rfl, rfl, layout_mode_ne_idle layout, run _, rfl, rfl, rfl⟩

end Sys2Proof.Proofs
end

section
/-! PROOFS. The block counter, BLOCKGEN and CRYPT (41_cipher_context.md R115 to R119): the counter as a number, the block
count in closed form, and what CRYPT has done after each byte. -/

namespace Sys2Proof.Proofs

open Sys2Proof Sys2Proof.Machine

/-- The increment of N8 adds 1 to the low word (R116). -/
theorem incPair_eight (S : Block) : (incPair S)[8] = S[8] + 1 := by
  by_cases carry : S[8] + 1 = 0
  · simpa [incPair_of_carry S carry] using carry.symm
  · simp [incPair_of_noCarry S carry]

/-- The increment of N8 carries into the high word where the low word wraps (R116). -/
theorem incPair_nine (S : Block) : (incPair S)[9] = if S[8] + 1 = 0 then S[9] + 1 else S[9] := by
  split_ifs with carry
  · simp [incPair_of_carry S carry]
  · simp [incPair_of_noCarry S carry]

/-- The increment of N8 adds 1 to the number the pair stands for, modulo `2^64` (R116). -/
theorem incPair_pair (S : Block) : (incPair S)[8].toNat + 2 ^ 32 * (incPair S)[9].toNat
    = (S[8].toNat + 2 ^ 32 * S[9].toNat + 1) % 2 ^ 64 := by
  have low := S[8].isLt
  have high := S[9].isLt
  have lowSucc : (S[8] + 1).toNat = (S[8].toNat + 1) % 2 ^ 32 := BitVec.toNat_add _ _
  rw [incPair_eight, incPair_nine]
  split_ifs with carry
  · have wrap : (S[8] + 1).toNat = 0 := congrArg BitVec.toNat carry
    have highSucc : (S[9] + 1).toNat = (S[9].toNat + 1) % 2 ^ 32 := BitVec.toNat_add _ _
    omega
  · have noWrap : (S[8] + 1).toNat ≠ 0 := fun h => carry (BitVec.eq_of_toNat_eq h)
    omega

/-- Settles O32: N8 counts in the pair, N12 in word 9, N16 not at all; every other word is left by a law of the
increment. -/
theorem counterIncrementsByLayout : Obligations.CounterIncrementsByLayout := by
  intro S
  refine ⟨⟨incPair_pair S, incPair_eight S, fun i h8 h9 => ?_⟩, ⟨?_, fun i h9 => ?_⟩, rfl⟩
  · exact ctrInc_getElem_other .n8 S i i.isLt (Fin.val_ne_of_ne h8) (Fin.val_ne_of_ne h9)
  · simp [ctrInc_n12]
  · exact Vector.getElem_set_ne (by decide) i.isLt (Fin.val_ne_of_ne h9).symm

/-- Settles O33: the lanes of the feed-forward are sums of words; the rest are BLOCKGEN's own field laws. -/
theorem blockGenerationAddsTheStateBack : Obligations.BlockGenerationAddsTheStateBack := by
  intro s _
  refine ⟨fun i => ?_, blockGen_S s, blockGen_pos s, blockGen_mode s, blockGen_cmd s, blockGen_rsp s,
    keyByte_eq (blockGen s).K⟩
  rw [blockGen_K, Fin.getElem_fin, keyBlock_getElem, BitVec.toNat_add]
  rfl

/-- Settles O34: an output that does not fit is tested before `MODE`. -/
theorem cryptRefusals : Obligations.CryptRefusals :=
  fun olen input s => ⟨exec_crypt_tooSmall olen input s, exec_crypt_notReady olen input s⟩

/-- One more byte generates one more block exactly when it finds `POS = 0` (R119). -/
theorem blocksGenerated_succ (p n : Nat) :
    blocksGenerated p (n + 1) = blocksGenerated p n + if (p + n) % 64 = 0 then 1 else 0 := by
  simp only [blocksGenerated, List.range_succ, List.filter_append, List.length_append]
  by_cases refills : (p + n) % 64 = 0 <;> simp [refills]

/-- The blocks generated are the block boundaries from byte `p` up to byte `p + n`. -/
theorem blocksGenerated_eq (p n : Nat) : blocksGenerated p n = (p + n + 63) / 64 - (p + 63) / 64 := by
  induction n with
  | zero => simp [blocksGenerated]
  | succ n ih =>
    rw [blocksGenerated_succ, ih]
    split_ifs <;> omega

/-- The number of blocks in the form R119 gives it: the bytes beyond what is left of the current block, in blocks. -/
theorem blocksGenerated_formula (p n : Nat) (h : p < 64) :
    blocksGenerated p n = if n = 0 then 0 else (n - (64 - p) % 64 + 63) / 64 := by
  rw [blocksGenerated_eq]
  split_ifs <;> omega

/-- What `K` holds once a CRYPT from `s` has generated `b` blocks: the last of them, or what `s` held (R119). -/
def lastBlock (s : State) (b : Nat) : Block :=
  if b = 0 then s.K else keyBlock ((ctrInc s.mode)^[b - 1] s.S)

@[simp] theorem lastBlock_zero (s : State) : lastBlock s 0 = s.K := rfl

@[simp] theorem lastBlock_succ (s : State) (b : Nat) :
    lastBlock s (b + 1) = keyBlock ((ctrInc s.mode)^[b] s.S) := rfl

/-- A byte of a new block counts the blocks from `S` on (R119). -/
theorem nextKeyByte_of_fresh (s : State) (i : Nat) (fresh : s.pos = 0) :
    nextKeyByte s i = (bytesLe (lastBlock s ((s.pos.toNat + i) / 64 + 1))).getD ((s.pos.toNat + i) % 64) 0 :=
  if_pos fresh

/-- A byte of a partly used block, and of the blocks after it, counts that block as generated already (R119). -/
theorem nextKeyByte_of_used (s : State) (i : Nat) (used : s.pos ≠ 0) :
    nextKeyByte s i = (bytesLe (lastBlock s ((s.pos.toNat + i) / 64))).getD ((s.pos.toNat + i) % 64) 0 := by
  refine (if_neg used).trans ?_
  split_ifs with left
  · rw [Nat.div_eq_of_lt left, Nat.mod_eq_of_lt left, lastBlock_zero]
  · obtain ⟨b, count⟩ : ∃ b, (s.pos.toNat + i) / 64 = b + 1 :=
      Nat.exists_eq_succ_of_ne_zero fun h => left (by omega)
    rw [count, lastBlock_succ, Nat.add_sub_cancel]

/-- Byte `i` of the keystream lies in the block that stands in `K` once byte `i` has been processed. -/
theorem nextKeyByte_eq (s : State) (i : Nat) :
    nextKeyByte s i
      = (bytesLe (lastBlock s (blocksGenerated s.pos.toNat (i + 1)))).getD ((s.pos.toNat + i) % 64) 0 := by
  have bound := s.pos.isLt
  rw [blocksGenerated_eq]
  by_cases fresh : s.pos = 0
  · have start : s.pos.toNat = 0 := congrArg BitVec.toNat fresh
    have count : (s.pos.toNat + (i + 1) + 63) / 64 - (s.pos.toNat + 63) / 64 = (s.pos.toNat + i) / 64 + 1 := by omega
    rw [nextKeyByte_of_fresh s i fresh, count]
  · have inside : s.pos.toNat ≠ 0 := fun h => fresh (BitVec.eq_of_toNat_eq h)
    have count : (s.pos.toNat + (i + 1) + 63) / 64 - (s.pos.toNat + 63) / 64 = (s.pos.toNat + i) / 64 := by omega
    rw [nextKeyByte_of_used s i fresh, count]

/-- The context CRYPT leaves of `s` after `n` bytes (R119). -/
structure AfterBytes (s : State) (n : Nat) (t : State) : Prop where
  mode_eq : t.mode = s.mode
  pos_eq : t.pos.toNat = (s.pos.toNat + n) % 64
  S_eq : t.S = (ctrInc s.mode)^[blocksGenerated s.pos.toNat n] s.S
  K_eq : t.K = lastBlock s (blocksGenerated s.pos.toNat n)

/-- Before the first byte nothing has been done. -/
theorem AfterBytes.zero (s : State) : AfterBytes s 0 s :=
  ⟨rfl, (Nat.mod_eq_of_lt s.pos.isLt).symm, rfl, rfl⟩

/-- The refill before byte `n` brings `S` and `K` to the block count of `n + 1` bytes. -/
theorem AfterBytes.refill {s t : State} {n : Nat} (h : AfterBytes s n t) :
    (refill t).S = (ctrInc s.mode)^[blocksGenerated s.pos.toNat (n + 1)] s.S
      ∧ (refill t).K = lastBlock s (blocksGenerated s.pos.toNat (n + 1)) := by
  rw [blocksGenerated_succ, ← h.pos_eq]
  by_cases empty : t.pos = 0
  · simp [refill_of_zero t empty, empty, h.mode_eq, h.S_eq, Function.iterate_succ_apply']
  · have inside : t.pos.toNat ≠ 0 := fun e => empty (BitVec.eq_of_toNat_eq e)
    simp [refill_of_ne t empty, inside, h.S_eq, h.K_eq]

/-- Byte `n` is XORed with byte `n` of the keystream (R119 step 2). -/
theorem AfterBytes.cryptByte_fst {s t : State} {n : Nat} (h : AfterBytes s n t) (b : Byte) :
    (cryptByte b t).1 = b ^^^ nextKeyByte s n := by
  rw [Machine.cryptByte_fst, keyByte_eq, h.refill.2, h.pos_eq, nextKeyByte_eq]

/-- Byte `n` takes what `n` bytes leave to what `n + 1` bytes leave. -/
theorem AfterBytes.cryptByte_snd {s t : State} {n : Nat} (h : AfterBytes s n t) (b : Byte) :
    AfterBytes s (n + 1) (cryptByte b t).2 := by
  obtain ⟨S_eq, K_eq⟩ := h.refill
  rw [Machine.cryptByte_snd]
  refine ⟨(refill_mode t).trans h.mode_eq, ?_, S_eq, K_eq⟩
  rw [State.setPos_pos, BitVec.toNat_add, h.pos_eq]
  exact Nat.mod_add_mod _ 64 1

/-- The byte loop, one byte at its end after the others: its output is the input XORed with the keystream and it leaves
what that many bytes leave. -/
theorem cryptLoop_afterBytes (s : State) (input : List Byte) :
    (cryptLoop input s).1 = (input.mapIdx fun i b => b ^^^ nextKeyByte s i)
      ∧ AfterBytes s input.length (cryptLoop input s).2 := by
  induction input using List.reverseRecOn with
  | nil => exact ⟨rfl, .zero s⟩
  | append_singleton bs b ih =>
    obtain ⟨out, after⟩ := ih
    have last : cryptLoop [b] (cryptLoop bs s).2
        = ([(cryptByte b (cryptLoop bs s).2).1], (cryptByte b (cryptLoop bs s).2).2) := rfl
    rw [cryptLoop_append, last, List.mapIdx_concat, List.length_append]
    exact ⟨by rw [out, after.cryptByte_fst], after.cryptByte_snd b⟩

/-- Settles O36: the answer and the state are those the byte loop leaves; the block count, the packet and the refusals
have laws of their own. -/
theorem cryptXorsTheNextKeystreamBytes : Obligations.CryptXorsTheNextKeystreamBytes := by
  refine ⟨fun olen input s live fits => ?_, blocksGenerated_formula, fun olen input s => ?_⟩
  · obtain ⟨out, after⟩ := cryptLoop_afterBytes s input
    refine ⟨_, exec_crypt_loop olen input s fits live, ?_, after.pos_eq, after.S_eq, after.K_eq, after.mode_eq,
      cryptLoop_cmd input s⟩
    rw [State.rspWrite_rsp, cryptLoop_rsp, out]
    rfl
  · exact ⟨rfl, Laws.EncodedLength.crypt olen input, exec_crypt_tooSmall olen input s,
      exec_crypt_notReady olen input s⟩

end Sys2Proof.Proofs
end

section
/-! PROOFS. DESTROY and STATUS (41_cipher_context.md R121, R123): the only command that ends a context and what it
leaves; the status word and its bytes. -/

namespace Sys2Proof.Proofs

open Sys2Proof Sys2Proof.Machine

/-- No command but DESTROY ends a context: an INIT that succeeds leaves a layout's `MODE`, any other command keeps the
one it found (R27, R121). -/
theorem exec_keeps_live {i : Instr} {s t : State} (live : s.mode ≠ .idle) (other : i ≠ .destroy)
    (run : exec i s = .next t) : t.mode ≠ .idle := by
  by_cases sets : i.setsMode
  · cases i with
    | qr | permute | hsalsa | crypt | status => exact sets.elim
    | init c key nonce =>
      rw [exec_init_mode sets run]
      split_ifs <;> exact Mode.noConfusion
    | destroy => exact absurd rfl other
  · exact exec_mode_of_not_setsMode sets run ▸ live

/-- No step but a DESTROY ends a context (R121). -/
theorem step_keeps_live {s t : State} (live : s.mode ≠ .idle) (run : step s = .next t)
    (other : ∀ rest, decode s.cmd ≠ .packet .destroy rest) : t.mode ≠ .idle := by
  obtain ⟨-, e⟩ | ⟨_, _, -, e⟩ | ⟨i, rest, front, e⟩ := step_cases s
  · cases e.symm.trans run
    exact live
  · cases e.symm.trans run
    exact live
  · have notDestroy : i ≠ .destroy := by
      rintro rfl
      exact other rest front
    exact exec_keeps_live (s := s.setCmd rest) live notDestroy (e.symm.trans run)

/-- Settles O42: DESTROY leaves the reset context, in which a second DESTROY finds nothing to clear and CRYPT finds
IDLE. -/
theorem destroyZeroisesTheContext : Obligations.DestroyZeroisesTheContext := by
  refine ⟨rfl, fun u v => step_keeps_live, fun s => ⟨_, exec_destroy s, fun i => ?_, rfl, rfl, rfl, rfl,
    ⟨rfl, rfl, rfl, rfl⟩, exec_destroy _, fun olen input fits => exec_crypt_notReady olen input _ fits rfl⟩⟩
  exact ⟨zeroBlock_getElem i i.isLt, zeroBlock_getElem i i.isLt⟩

/-- The status word as a number: both fields fit, so R30's sum does not wrap. -/
theorem statusWord_toNat (mode : Mode) (pos : BitVec 6) :
    (statusWord mode pos).toNat = mode.code.toNat + 256 * pos.toNat := by
  have := mode.code.isLt
  have := pos.isLt
  simp only [statusWord, BitVec.toNat_ofNat]
  omega

/-- The status word is laid out as a response word is: `MODE` where the status code stands, `POS` where the opcode does,
so its bytes are those of a response without a body (R30, R74). -/
theorem store32le_statusWord (mode : Mode) (pos : BitVec 6) :
    store32le (statusWord mode pos) = [mode.code.setWidth 8, BitVec.ofNat 8 pos.toNat, 0, 0] := by
  have := mode.code.isLt
  have := pos.isLt
  have word : statusWord mode pos = responseWord (mode.code.setWidth 8) (BitVec.ofNat 8 pos.toNat) := by
    apply BitVec.eq_of_toNat_eq
    simp only [statusWord, responseWord, BitVec.toNat_ofNat, BitVec.toNat_setWidth]
    omega
  simpa [word, responseBytes] using responseBytes_eq (mode.code.setWidth 8) (BitVec.ofNat 8 pos.toNat) []

/-- Settles O43: the byte named in the statement is the code of `MODE`, in each of the four. -/
theorem statusReportsModeAndPosition : Obligations.StatusReportsModeAndPosition := by
  refine ⟨rfl, ?_⟩
  intro s code
  have byte : code = s.mode.code.setWidth 8 := by
    simp only [code]
    cases s.mode <;> rfl
  have number : code.toNat = s.mode.code.toNat := by
    have := s.mode.code.isLt
    simp only [byte, BitVec.toNat_setWidth]
    omega
  refine ⟨?_, number ▸ statusWord_toNat s.mode s.pos⟩
  rw [exec_status, store32le_statusWord, ← byte]
  rfl

end Sys2Proof.Proofs
end

section
/-! PROOFS. HSALSA (42_hsalsa20.md R140 to R142): the array HSalsa20 permutes and the words it returns, then the
command's answer and its refusal. -/

namespace Sys2Proof.Proofs

open Sys2Proof Sys2Proof.Machine

/-- The array HSalsa20 permutes: the layout of the key with the whole 16-byte nonce in words 6 to 9 (R140). -/
def hsalsaWords (key nonce : List Byte) : Block :=
  layoutWords key (load32le nonce 0) (load32le nonce 4) (load32le nonce 8) (load32le nonce 12)

/-- The derived key is made of eight words of the permuted array, with no feed-forward (R140). -/
theorem hsalsa20_eq (key nonce : List Byte) : hsalsa20 key nonce
    = ([0, 5, 10, 15, 6, 7, 8, 9] : List (Fin 16)).flatMap fun i => store32le (permute (hsalsaWords key nonce))[i] :=
  rfl

/-- The array HSalsa20 permutes has the nonce words at 6 to 9, in order (R140). -/
theorem hsalsaWords_nonce (key nonce : List Byte) (i : Fin 4) :
    (hsalsaWords key nonce)[6 + i.val] = load32le nonce (4 * i.val) :=
  match i with
  | 0 => layoutWords_six ..
  | 1 => layoutWords_seven ..
  | 2 => layoutWords_eight ..
  | 3 => layoutWords_nine ..

/-- HSALSA of operands of the right sizes answers with the derived key (R141). -/
theorem exec_hsalsa_accepted {key nonce : List Byte} (s : State) (hk : key.length = 32) (hn : nonce.length = 16) :
    exec (.hsalsa key nonce) s = .next (s.rspWrite (0x00 :: 0x03 :: 0 :: 0 :: hsalsa20 key nonce)) := by
  rw [exec_hsalsa, if_pos ⟨hk, hn⟩]

/-- HSALSA of operands of any other size is InvalidArgument (R142). -/
theorem exec_hsalsa_rejected {key nonce : List Byte} (s : State) (h : key.length ≠ 32 ∨ nonce.length ≠ 16) :
    exec (.hsalsa key nonce) s = .next (s.rspWrite [0x04, 0x03, 0, 0]) := by
  rw [exec_hsalsa, if_neg (not_and_or.mpr h)]

/-- Settles O25: the array is `hsalsaWords`, whose constants and key words are those of every layout. -/
theorem hsalsaAnswersTheDerivedKey : Obligations.HsalsaAnswersTheDerivedKey := by
  intro key nonce s hk hn
  refine ⟨hsalsaWords key nonce, layoutWords_constants .., fun i => ?_, hsalsa20_eq key nonce,
    exec_hsalsa_accepted s hk hn⟩
  obtain ⟨low, high⟩ := layoutWords_key key (load32le nonce 0) (load32le nonce 4) (load32le nonce 8)
    (load32le nonce 12) i
  exact ⟨low, high, hsalsaWords_nonce key nonce i⟩

/-- Settles O26: sizes are tested before anything is computed, and the refusal writes its four bytes only. -/
theorem hsalsaRejectsOtherSizes : Obligations.HsalsaRejectsOtherSizes :=
  fun _ _ => exec_hsalsa_rejected

end Sys2Proof.Proofs
end

section
/-! PROOFS. Errors (60_exceptions.md R150, R157 to R159): which headers are illegal, read off the opcode map byte by
byte, then what the unit answers an error with and that it does nothing else. -/

namespace Sys2Proof.Proofs

open Sys2Proof Sys2Proof.Machine

/-- The opcodes of the commands whose headers have no fields: PERMUTE, CRYPT, DESTROY, STATUS (R72). -/
def fieldlessOpcodes : List Byte := [0x02, 0x11, 0x12, 0x13]

/-- The three ways a header is illegal (R72). -/
def HeaderIllegal (h0 h1 h2 h3 : Byte) : Prop :=
  h0 ∉ ([0x01, 0x02, 0x03, 0x10, 0x11, 0x12, 0x13] : List Byte) ∨ h3 ≠ 0
    ∨ (h0 ∈ fieldlessOpcodes ∧ (h1 ≠ 0 ∨ h2 ≠ 0))

/-- The bits of `F1`, and of `F2`, that the row of an opcode compares: all of them or none (R71). -/
def fieldMask (opc : Byte) : Byte := if opc ∈ fieldlessOpcodes then BitVec.allOnes 8 else 0

/-- A field meets its row when it is 0 or the header has fields (R71, R72). -/
theorem and_fieldMask_eq_zero_iff (field opc : Byte) :
    field &&& fieldMask opc = 0 ↔ (opc ∈ fieldlessOpcodes → field = 0) := by
  rw [fieldMask]
  split_ifs with fieldless
  · rw [BitVec.and_allOnes, forall_prop_of_true fieldless]
  · exact iff_of_true BitVec.and_zero fun h => absurd h fieldless

/-- Each row of the opcode map byte by byte: it compares `RSV` with 0, the fields by `fieldMask`, and the whole opcode
(R71). -/
theorem opcodeMap_bytes {r : OpcodeRow} (hr : r ∈ opcodeMap) :
    r.mask = BitVec.allOnes 8 ++ fieldMask r.op.byte ++ fieldMask r.op.byte ++ BitVec.allOnes 8
      ∧ r.value = (0 : Byte) ++ (0 : Byte) ++ (0 : Byte) ++ r.op.byte := by
  have rows : ∀ r ∈ opcodeMap,
      r.mask = BitVec.allOnes 8 ++ fieldMask r.op.byte ++ fieldMask r.op.byte ++ BitVec.allOnes 8
        ∧ r.value = (0 : Byte) ++ (0 : Byte) ++ (0 : Byte) ++ r.op.byte := by decide
  exact rows r hr

/-- Bit vectors put side by side are equal when each part is. -/
theorem bitVec_append_inj {m n : Nat} {x x' : BitVec m} {y y' : BitVec n} :
    x ++ y = x' ++ y' ↔ x = x' ∧ y = y' := by
  constructor
  · intro h
    have high := congrArg (BitVec.extractLsb' n m) h
    have low := congrArg (BitVec.extractLsb' 0 n) h
    simpa only [BitVec.extractLsb'_append_eq_left, BitVec.extractLsb'_append_eq_right] using And.intro high low
  · rintro ⟨rfl, rfl⟩
    rfl

/-- A masked comparison of words is one of their bytes. -/
theorem and_bytes_eq_iff (h0 h1 h2 h3 m0 m1 m2 m3 v0 v1 v2 v3 : Byte) :
    (h3 ++ h2 ++ h1 ++ h0) &&& (m3 ++ m2 ++ m1 ++ m0) = v3 ++ v2 ++ v1 ++ v0
      ↔ h3 &&& m3 = v3 ∧ h2 &&& m2 = v2 ∧ h1 &&& m1 = v1 ∧ h0 &&& m0 = v0 := by
  simp only [BitVec.and_append, bitVec_append_inj, and_assoc]

/-- A header selects a row when it carries the row's opcode and the bytes R72 wants 0 are 0 (R62 step 2). -/
theorem selects_iff {r : OpcodeRow} (hr : r ∈ opcodeMap) (h0 h1 h2 h3 : Byte) (rest : List Byte) :
    r.selects (load32le (h0 :: h1 :: h2 :: h3 :: rest) 0) = true
      ↔ h0 = r.op.byte ∧ h3 = 0 ∧ (h0 ∈ fieldlessOpcodes → h1 = 0 ∧ h2 = 0) := by
  obtain ⟨mask, value⟩ := opcodeMap_bytes hr
  rw [OpcodeRow.selects, beq_iff_eq, load32le_eq_append, mask, value]
  refine (and_bytes_eq_iff ..).trans ?_
  simp only [BitVec.and_allOnes, and_fieldMask_eq_zero_iff]
  constructor
  · rintro ⟨rsv, f2, f1, rfl⟩
    exact ⟨rfl, rsv, fun fieldless => ⟨f1 fieldless, f2 fieldless⟩⟩
  · rintro ⟨rfl, rsv, fields⟩
    exact ⟨rsv, fun fieldless => (fields fieldless).2, fun fieldless => (fields fieldless).1, rfl⟩

/-- A header selects no row exactly when it is illegal (R62 step 3, R72). -/
theorem selectRow_eq_none_iff (h0 h1 h2 h3 : Byte) (rest : List Byte) :
    selectRow (load32le (h0 :: h1 :: h2 :: h3 :: rest) 0) = none ↔ HeaderIllegal h0 h1 h2 h3 := by
  have opcodes : ([0x01, 0x02, 0x03, 0x10, 0x11, 0x12, 0x13] : List Byte) = opcodeMap.map (·.op.byte) := rfl
  rw [selectRow, Option.map_eq_none_iff, List.find?_eq_none, HeaderIllegal, opcodes, List.mem_map]
  constructor
  · intro unselected
    by_contra legal
    push Not at legal
    obtain ⟨⟨r, hr, opc⟩, rsv, fields⟩ := legal
    exact unselected r hr ((selects_iff hr h0 h1 h2 h3 rest).mpr ⟨opc.symm, rsv, fields⟩)
  · intro illegal r hr selected
    obtain ⟨opc, rsv, fields⟩ := (selects_iff hr h0 h1 h2 h3 rest).mp selected
    obtain other | reserved | ⟨fieldless, used⟩ := illegal
    · exact other ⟨r, hr, opc.symm⟩
    · exact reserved rsv
    · exact not_and_or.mpr used (fields fieldless)

/-- A stream that opens with an illegal header: its four bytes are the packet (R62 step 3). -/
theorem decode_of_headerIllegal {h0 h1 h2 h3 : Byte} (rest : List Byte) (illegal : HeaderIllegal h0 h1 h2 h3) :
    decode (h0 :: h1 :: h2 :: h3 :: rest) = .illegal (load32le (h0 :: h1 :: h2 :: h3 :: rest) 0) rest := by
  have unselected := (selectRow_eq_none_iff h0 h1 h2 h3 rest).mpr illegal
  obtain ⟨short, -⟩ | ⟨-, -, e⟩ | ⟨_, -, selected, -⟩ | ⟨_, _, -, selected, -⟩ | ⟨_, _, -, selected, -⟩ :=
    decode_cases (h0 :: h1 :: h2 :: h3 :: rest)
  · exact absurd short (Nat.not_lt.mpr (Nat.le_add_left 4 rest.length))
  · exact e
  all_goals cases unselected.symm.trans selected

/-- The decoder finds a header illegal exactly in the cases of R72. -/
theorem decode_illegal_iff (h0 h1 h2 h3 : Byte) (rest : List Byte) :
    (∃ hw r, decode (h0 :: h1 :: h2 :: h3 :: rest) = .illegal hw r) ↔ HeaderIllegal h0 h1 h2 h3 := by
  constructor
  · rintro ⟨hw, r, found⟩
    obtain ⟨-, rfl, unselected, -⟩ := decode_eq_illegal found
    exact (selectRow_eq_none_iff h0 h1 h2 h3 rest).mp unselected
  · intro illegal
    exact ⟨_, _, decode_of_headerIllegal rest illegal⟩

/-- Settles O15: the decoder's illegal headers are those of R72, and the step answers one with its first byte. -/
theorem illegalHeadersAreAnswered : Obligations.IllegalHeadersAreAnswered := by
  intro h0 h1 h2 h3 rest s front
  refine ⟨front ▸ decode_illegal_iff h0 h1 h2 h3 rest, fun illegal => ?_⟩
  have found : decode s.cmd = .illegal _ rest := front ▸ decode_of_headerIllegal rest illegal
  rw [step_of_illegal found, front]
  rfl

/-- A command whose status is not 0 is answered with its error (R150). -/
theorem exec_of_error {i : Instr} {s : State} (error : expectedStatus s.mode i ≠ 0) :
    exec i s = .next (s.rspWrite [expectedStatus s.mode i, i.opcodeByte, 0, 0]) := by
  obtain ⟨-, run⟩ | ⟨ok, -⟩ := exec_answer i s
  · exact run
  · exact absurd ok error

/-- Settles O23: a command's response opens with its status and opcode; an illegal header's is the four bytes of
R157. -/
theorem statusCodesFollowTheErrorTable : Obligations.StatusCodesFollowTheErrorTable := by
  refine ⟨fun i s => ?_, fun s hw rest front => ⟨_, step_of_illegal front, rfl⟩⟩
  obtain ⟨t, body, run, -, rsp, -⟩ := exec_response i s
  exact ⟨t, body, run, rsp⟩

/-- Settles O24: the packet is taken off the stream before its command runs, and its first byte is the opcode echoed. -/
theorem errorsOnlyAppendTheirResponse : Obligations.ErrorsOnlyAppendTheirResponse := by
  refine ⟨fun i s => exec_of_error, fun i s rest front error => ?_, fun s hw rest => step_of_illegal⟩
  rw [step_of_packet front, byteAt_zero_of_decode_packet front]
  exact exec_of_error (s := s.setCmd rest) error

end Sys2Proof.Proofs
end

section
/-! PROOFS. Byte order (00_scope.md R11; 20_memory.md R44, R45): the conversions as weighted sums of bytes, and that
storing what was loaded gives the bytes back, for words, double words and blocks. -/

namespace Sys2Proof.Proofs

open Sys2Proof Sys2Proof.Machine

/-- Inside a byte string a read is the list's own. -/
theorem byteAt_eq_getElem {b : List Byte} {i : Nat} (h : i < b.length) : byteAt b i = b[i] :=
  List.getD_eq_getElem b 0 h

/-- The byte reads of a load are the four bytes from its offset on. -/
theorem byteAt_four {b : List Byte} {o : Nat} (h : o + 4 ≤ b.length) :
    [byteAt b o, byteAt b (o + 1), byteAt b (o + 2), byteAt b (o + 3)] = (b.drop o).take 4 := by
  rw [byteAt_eq_getElem (by omega), byteAt_eq_getElem (by omega), byteAt_eq_getElem (by omega),
    byteAt_eq_getElem (by omega), List.drop_eq_getElem_cons (by omega), List.drop_eq_getElem_cons (by omega),
    List.drop_eq_getElem_cons (by omega), List.drop_eq_getElem_cons (by omega)]
  rfl

/-- Storing what was loaded from a byte string gives its four bytes back (R11). -/
theorem store32le_load32le_eq_take {b : List Byte} {o : Nat} (h : o + 4 ≤ b.length) :
    store32le (load32le b o) = (b.drop o).take 4 := by
  rw [← byteAt_four h]
  exact store32le_load32le (byteAt b o) (byteAt b (o + 1)) (byteAt b (o + 2)) (byteAt b (o + 3)) []

/-- Both words of a double-word load fit side by side, so R11's sum needs no reduction. -/
theorem load64le_toNat (b : List Byte) (o : Nat) :
    (load64le b o).toNat = (load32le b o).toNat + 2 ^ 32 * (load32le b (o + 4)).toNat := by
  have low := (load32le b o).isLt
  have high := (load32le b (o + 4)).isLt
  simp only [load64le, BitVec.toNat_ofNat]
  omega

/-- Storing what was loaded as a double word gives its eight bytes back (R11). -/
theorem store64le_load64le_eq_take {b : List Byte} (h : 8 ≤ b.length) : store64le (load64le b 0) = b.take 8 := by
  have value := load64le_toNat b 0
  have lowBound := (load32le b 0).isLt
  have low : (load64le b 0).extractLsb' 0 32 = load32le b 0 := by
    apply BitVec.eq_of_toNat_eq
    simp only [BitVec.extractLsb'_toNat, Nat.shiftRight_eq_div_pow]
    omega
  have high : (load64le b 0).extractLsb' 32 32 = load32le b 4 := by
    have := (load32le b 4).isLt
    apply BitVec.eq_of_toNat_eq
    simp only [BitVec.extractLsb'_toNat, Nat.shiftRight_eq_div_pow, value, Nat.zero_add]
    omega
  rw [store64le, low, high, store32le_load32le_eq_take (by omega), store32le_load32le_eq_take (by omega),
    List.drop_zero, ← List.take_add]

/-- `bytes_le` in index order (R11). -/
theorem bytesLe_eq_flatMap_finRange (x : Block) :
    bytesLe x = (List.finRange 16).flatMap fun i => store32le x[i] := by
  have words : x.toList = (List.finRange 16).map fun i => x[i] := by
    apply List.ext_getElem <;> simp
  rw [bytesLe, words, List.flatMap_map]

/-- Consecutive words of a byte string, written back, are its first bytes (R11). -/
theorem flatMap_store32le_load32le (b : List Byte) (n : Nat) (h : 4 * n ≤ b.length) :
    ((List.range n).flatMap fun i => store32le (load32le b (4 * i))) = b.take (4 * n) := by
  induction n with
  | zero => rfl
  | succ n ih =>
    rw [List.range_succ, List.flatMap_append, ih (by omega), List.flatMap_singleton,
      store32le_load32le_eq_take (by omega), Nat.mul_succ, List.take_add]

/-- Sixty-four bytes, read as words and written back (R11). -/
theorem bytesLe_wordsLe {b : List Byte} (h : b.length = 64) : bytesLe (wordsLe b) = b := by
  calc bytesLe (wordsLe b)
      = (List.finRange 16).flatMap fun i => store32le (load32le b (4 * i.val)) := by
        simp [bytesLe_eq_flatMap_finRange, wordsLe]
    _ = (List.range 16).flatMap fun i => store32le (load32le b (4 * i)) := by
        rw [← List.map_coe_finRange_eq_range, List.flatMap_map]
    _ = b := by rw [flatMap_store32le_load32le b 16 h.ge, List.take_of_length_le h.le]

/-- Settles O2: the sums are those of the loads' own laws, read inside the string. -/
theorem byteOrderIsLittleEndian : Obligations.ByteOrderIsLittleEndian := by
  refine ⟨fun b o h => ?_, fun w => ?_, fun b o _ => load64le_toNat b o, fun b i _ => ?_, bytesLe_eq_flatMap_finRange⟩
  · rw [load32le_toNat, byteAt_eq_getElem (by omega), byteAt_eq_getElem (by omega), byteAt_eq_getElem (by omega),
      byteAt_eq_getElem (by omega)]
    norm_num
  · simp [store32le, BitVec.extractLsb'_toNat, Nat.shiftRight_eq_div_pow]
  · simp [wordsLe]

end Sys2Proof.Proofs
end

section
/-! PROOFS. The codec (30_encoding.md sections 2 to 4): which headers select which row, the decoding of a packet given as
header and body, and the two halves of the round trip. -/

namespace Sys2Proof.Proofs

open Sys2Proof Sys2Proof.Machine

/-! ### The opcode map -/

/-- Two rows with one opcode are one row (R71). -/
theorem opcodeMap_row_of_opcode {r r' : OpcodeRow} (hr : r ∈ opcodeMap) (hr' : r' ∈ opcodeMap)
    (same : r.op.byte = r'.op.byte) : r = r' := by
  have rows : ∀ r ∈ opcodeMap, ∀ r' ∈ opcodeMap, r.op.byte = r'.op.byte → r = r' := by decide
  exact rows r hr r' hr' same

/-- A header word that selects a row carries the row's opcode in its first byte (R62 step 2, R71). -/
theorem headerOpc_of_selects {r : OpcodeRow} {hw : Word} (hr : r ∈ opcodeMap) (selected : r.selects hw = true) :
    headerOpc hw = r.op.byte := by
  rw [← load32le_store32le hw] at selected
  exact ((selects_iff hr ..).mp selected).1

/-- Settles O10: a row selected is the row of the opcode the header word carries. -/
theorem opcodeMapRowsAreDisjoint : Obligations.OpcodeMapRowsAreDisjoint := by
  intro hw r r' hr hr' selected selected'
  exact opcodeMap_row_of_opcode hr hr'
    ((headerOpc_of_selects hr selected).symm.trans (headerOpc_of_selects hr' selected'))

/-- No two commands share an opcode (R71). -/
theorem opcode_byte_injective : Function.Injective Opcode.byte := by
  intro op op' same
  revert same
  cases op <;> cases op' <;> decide

/-- The opcode of every command stands in the opcode map (R71). -/
theorem opcode_byte_mem (op : Opcode) :
    op.byte ∈ ([0x01, 0x02, 0x03, 0x10, 0x11, 0x12, 0x13] : List Byte) := by
  cases op <;> decide

/-- The two field bytes are ones the command's header may carry: both 0 where it has no fields (R72). -/
def FieldsFit (op : Opcode) (f1 f2 : Byte) : Prop := op.byte ∈ fieldlessOpcodes → f1 = 0 ∧ f2 = 0

/-- Which header selects which row: the row's opcode, `RSV` 0, and fields the row admits (R62 step 2, R71, R72). -/
theorem selectRow_eq_some_iff (op : Opcode) (h0 h1 h2 h3 : Byte) (rest : List Byte) :
    selectRow (load32le (h0 :: h1 :: h2 :: h3 :: rest) 0) = some op
      ↔ h0 = op.byte ∧ h3 = 0 ∧ FieldsFit op h1 h2 := by
  constructor
  · intro selected
    obtain ⟨r, found, rfl⟩ := Option.map_eq_some_iff.mp selected
    obtain ⟨rfl, rsv, fields⟩ :=
      (selects_iff (List.mem_of_find?_eq_some found) h0 h1 h2 h3 rest).mp (by simpa using List.find?_some found)
    exact ⟨rfl, rsv, fields⟩
  · rintro ⟨rfl, rfl, fields⟩
    have legal : ¬ HeaderIllegal op.byte h1 h2 0 := by
      rintro (unknown | reserved | ⟨fieldless, used⟩)
      · exact unknown (opcode_byte_mem op)
      · exact reserved rfl
      · exact not_and_or.mpr used (fields fieldless)
    obtain ⟨op', selected⟩ := Option.ne_none_iff_exists'.mp (mt (selectRow_eq_none_iff _ _ _ _ rest).mp legal)
    have opc := headerOpc_of_selectRow selected
    rw [(header_fields ..).1] at opc
    rw [selected, opcode_byte_injective opc]

/-! ### The header word -/

/-- The header word of a legal header (R61). -/
def headerWord (op : Opcode) (f1 f2 : Byte) : Word := load32le (header op f1 f2) 0

/-- The header word is read off the first four bytes, whatever follows. -/
@[simp] theorem load32le_header_append (op : Opcode) (f1 f2 : Byte) (b : List Byte) :
    load32le (header op f1 f2 ++ b) 0 = headerWord op f1 f2 :=
  load32le_append_left (by simp)

@[simp] theorem headerF1_headerWord (op : Opcode) (f1 f2 : Byte) : headerF1 (headerWord op f1 f2) = f1 :=
  (header_fields ..).2.1

@[simp] theorem headerF2_headerWord (op : Opcode) (f1 f2 : Byte) : headerF2 (headerWord op f1 f2) = f2 :=
  (header_fields ..).2.2.1

/-- The header word as the sum of its bytes; `RSV` adds nothing (R61). -/
theorem headerWord_toNat (op : Opcode) (f1 f2 : Byte) :
    (headerWord op f1 f2).toNat = op.byte.toNat + 0x100 * f1.toNat + 0x10000 * f2.toNat := by
  rw [headerWord, load32le_toNat]
  simp [header, byteAt]

/-- The two index fields of a byte (R64). -/
theorem indexByte_toNat (lo hi : Fin 16) : (indexByte lo hi).toNat = 16 * hi.val + lo.val := by
  simp only [indexByte, BitVec.toNat_ofNat]
  omega

/-- The four index fields of a header word of format Q: the low and the high half of `F1`, then of `F2` (R64). -/
theorem headerIndex_headerWord_val (op : Opcode) (f1 f2 : Byte) :
    (headerIndex (headerWord op f1 f2) 8).val = f1.toNat % 16
      ∧ (headerIndex (headerWord op f1 f2) 12).val = f1.toNat / 16
      ∧ (headerIndex (headerWord op f1 f2) 16).val = f2.toNat % 16
      ∧ (headerIndex (headerWord op f1 f2) 20).val = f2.toNat / 16 := by
  have value := headerWord_toNat op f1 f2
  have opc := op.byte.isLt
  have first := f1.isLt
  have second := f2.isLt
  simp only [headerIndex, BitVec.val_toFin, BitVec.extractLsb'_toNat, Nat.shiftRight_eq_div_pow, value]
  omega

/-- The index fields of a header made of four indices are those indices (R64). -/
theorem headerIndex_indexByte (op : Opcode) (a b c d : Fin 16) :
    headerIndex (headerWord op (indexByte a b) (indexByte c d)) 8 = a
      ∧ headerIndex (headerWord op (indexByte a b) (indexByte c d)) 12 = b
      ∧ headerIndex (headerWord op (indexByte a b) (indexByte c d)) 16 = c
      ∧ headerIndex (headerWord op (indexByte a b) (indexByte c d)) 20 = d := by
  obtain ⟨ia, ib, ic, id⟩ := headerIndex_headerWord_val op (indexByte a b) (indexByte c d)
  rw [indexByte_toNat] at ia ib ic id
  refine ⟨?_, ?_, ?_, ?_⟩ <;> apply Fin.ext <;> omega

/-- The field bytes of a header are made of its four indices (R64). -/
theorem indexByte_headerIndex (op : Opcode) (f1 f2 : Byte) :
    indexByte (headerIndex (headerWord op f1 f2) 8) (headerIndex (headerWord op f1 f2) 12) = f1
      ∧ indexByte (headerIndex (headerWord op f1 f2) 16) (headerIndex (headerWord op f1 f2) 20) = f2 := by
  obtain ⟨ia, ib, ic, id⟩ := headerIndex_headerWord_val op f1 f2
  constructor <;> apply BitVec.eq_of_toNat_eq <;> rw [indexByte_toNat] <;> omega

/-- A declarable length survives in its byte (R66). -/
theorem lengthByte_toNat {b : List Byte} (h : b.length ≤ 255) : (lengthByte b).toNat = b.length := by
  rw [lengthByte, BitVec.toNat_ofNat, Nat.mod_eq_of_lt (Nat.lt_succ_of_le h)]

/-- The byte of a length that came from a byte is that byte (R66). -/
theorem lengthByte_of_length {b : List Byte} {f : Byte} (h : b.length = f.toNat) : lengthByte b = f := by
  rw [lengthByte, h, BitVec.ofNat_toNat, BitVec.setWidth_eq]

/-! ### A packet as header and body -/

/-- The bytes are exactly the body of a packet with this header (R60, R76). -/
def IsBody (op : Opcode) (f1 f2 : Byte) (body : List Byte) : Prop :=
  bodyLength op (headerWord op f1 f2) body = some body.length

/-- What follows the body does not enter its length: only CRYPT reads body bytes for it, and those lie in the body. -/
theorem IsBody.append {op : Opcode} {f1 f2 : Byte} {body : List Byte} (h : IsBody op f1 f2 body) (rest : List Byte) :
    bodyLength op (headerWord op f1 f2) (body ++ rest) = some body.length := by
  cases op with
  | qr | permute | hsalsa | init | destroy | status => exact h
  | crypt =>
    by_cases short : body.length < 8
    · simp [IsBody, bodyLength, short] at h
    · have long : ¬ (body ++ rest).length < 8 := by rw [List.length_append]; omega
      rw [IsBody, bodyLength, if_neg short] at h
      rw [bodyLength, if_neg long, load32le_append_left (by omega), h]

/-- The bytes the length in the header, or in CRYPT's length fields, cuts off a stream are a body (R60, R76). -/
theorem isBody_take {op : Opcode} {f1 f2 : Byte} {tail : List Byte} {n : Nat}
    (len : bodyLength op (headerWord op f1 f2) tail = some n) (fits : n ≤ tail.length) :
    IsBody op f1 f2 (tail.take n) := by
  have cut : (tail.take n).length = n := List.length_take_of_le fits
  rw [IsBody, cut]
  cases op with
  | qr | permute | hsalsa | init | destroy | status => exact len
  | crypt =>
    rw [bodyLength] at len ⊢
    split_ifs at len with short
    have lengthFields : 8 ≤ n := by
      have := Option.some.inj len
      omega
    rw [if_neg (by omega), ← len, ← load32le_append_left (b := tail.drop n) (by omega), List.take_append_drop]

/-- A legal header and its body decode to the command assembled of them, and leave what follows (R62 step 4). -/
theorem decode_packet {op : Opcode} {f1 f2 : Byte} {body : List Byte} (fields : FieldsFit op f1 f2)
    (h : IsBody op f1 f2 body) (rest : List Byte) :
    decode (header op f1 f2 ++ (body ++ rest)) = .packet (assemble op (headerWord op f1 f2) body) rest := by
  have row : selectRow (headerWord op f1 f2) = some op := (selectRow_eq_some_iff op _ _ _ _ []).mpr ⟨rfl, rfl, fields⟩
  have long : ¬ (header op f1 f2 ++ (body ++ rest)).length < 4 := by simp
  have tail : (header op f1 f2 ++ (body ++ rest)).drop 4 = body ++ rest := rfl
  simp only [decode, if_neg long, cmdRead, load32le_header_append, row, tail, h.append rest]
  simp

/-- Conversely a command decoded is assembled of a legal header and its body, which are what was taken off. -/
theorem exists_packet_of_decode {bytes rest : List Byte} {i : Instr} (h : decode bytes = .packet i rest) :
    ∃ op f1 f2 body, FieldsFit op f1 f2 ∧ IsBody op f1 f2 body
      ∧ bytes = header op f1 f2 ++ (body ++ rest) ∧ i = assemble op (headerWord op f1 f2) body := by
  obtain ⟨h4, op, n, row, len, fits, rfl, rfl⟩ := decode_eq_packet h
  match bytes, h4 with
  | h0 :: f1 :: f2 :: h3 :: tail, _ =>
    obtain ⟨rfl, rfl, fields⟩ := (selectRow_eq_some_iff op h0 f1 f2 h3 tail).mp row
    have word : load32le (op.byte :: f1 :: f2 :: 0 :: tail) 0 = headerWord op f1 f2 :=
      load32le_header_append op f1 f2 tail
    simp only [word, List.drop_succ_cons, List.drop_zero] at len fits ⊢
    refine ⟨op, f1, f2, tail.take n, fields, isBody_take len fits, ?_, rfl⟩
    rw [List.take_append_drop]
    rfl

/-! ### The round trip -/

/-- A header without fields fits every row. -/
theorem fieldsFit_zero (op : Opcode) : FieldsFit op 0 0 := fun _ => ⟨rfl, rfl⟩

/-- A slice that stands between two parts of a byte string (R12). -/
theorem slice_append {a b : List Byte} (c : List Byte) {lo hi : Nat} (start : a.length = lo)
    (stop : (a ++ b).length = hi) : slice (a ++ b ++ c) lo hi = b := by
  rw [slice, ← stop, List.take_left, ← start, List.drop_left]

/-- A slice up to the end of a byte string (R12). -/
theorem slice_append_last {a b : List Byte} {lo hi : Nat} (start : a.length = lo) (stop : (a ++ b).length = hi) :
    slice (a ++ b) lo hi = b := by
  simpa using slice_append [] start stop

/-- Decoding QR: the indices from the header, the array from the body (R64, R70). -/
theorem decode_qr (a b c d : Fin 16) {body : List Byte} (h : body.length = 64) (rest : List Byte) :
    decode (header .qr (indexByte a b) (indexByte c d) ++ (body ++ rest)) = .packet (.qr a b c d (wordsLe body)) rest := by
  obtain ⟨ia, ib, ic, id⟩ := headerIndex_indexByte .qr a b c d
  rw [decode_packet (fun fieldless => absurd fieldless (by decide)) (by rw [IsBody, h]; rfl)]
  simp only [assemble, ia, ib, ic, id]

/-- Decoding PERMUTE (R65, R70). -/
theorem decode_permute {body : List Byte} (h : body.length = 64) (rest : List Byte) :
    decode (header .permute 0 0 ++ (body ++ rest)) = .packet (.permute (wordsLe body)) rest :=
  decode_packet (fieldsFit_zero _) (by rw [IsBody, h]; rfl) rest

/-- Decoding HSALSA: the key, then the nonce, at their declared lengths (R66, R67). -/
theorem decode_hsalsa {key nonce : List Byte} (hk : key.length ≤ 255) (hn : nonce.length ≤ 255) (rest : List Byte) :
    decode (header .hsalsa (lengthByte key) (lengthByte nonce) ++ (key ++ nonce ++ rest))
      = .packet (.hsalsa key nonce) rest := by
  have atKey : slice (key ++ nonce) 0 key.length = key := slice_append (a := []) nonce rfl rfl
  have atNonce : slice (key ++ nonce) key.length (key.length + nonce.length) = nonce :=
    slice_append_last rfl List.length_append
  rw [decode_packet (fun fieldless => absurd fieldless (by decide))]
  · simp only [assemble, headerF1_headerWord, headerF2_headerWord, lengthByte_toNat hk, lengthByte_toNat hn, atKey,
      atNonce]
  · simp [IsBody, bodyLength, lengthByte_toNat hk, lengthByte_toNat hn]

/-- Decoding INIT: the counter, the key, then the nonce (R66, R68). -/
theorem decode_init {cb key nonce : List Byte} (hc : cb.length = 8) (hk : key.length ≤ 255) (hn : nonce.length ≤ 255)
    (rest : List Byte) :
    decode (header .init (lengthByte key) (lengthByte nonce) ++ (cb ++ key ++ nonce ++ rest))
      = .packet (.init (load64le cb 0) key nonce) rest := by
  have atCounter : load64le (cb ++ key ++ nonce) 0 = load64le cb 0 := by
    rw [List.append_assoc, load64le, load32le_append_left (by omega), load32le_append_left (by omega), load64le]
  have atKey : slice (cb ++ key ++ nonce) 8 (8 + key.length) = key :=
    slice_append nonce hc (by rw [List.length_append, hc])
  have atNonce : slice (cb ++ key ++ nonce) (8 + key.length) (8 + key.length + nonce.length) = nonce :=
    slice_append_last (by rw [List.length_append, hc]) (by rw [List.length_append, List.length_append, hc])
  rw [decode_packet (fun fieldless => absurd fieldless (by decide))]
  · simp only [assemble, headerF1_headerWord, headerF2_headerWord, lengthByte_toNat hk, lengthByte_toNat hn, atCounter,
      atKey, atNonce]
  · simp [IsBody, bodyLength, lengthByte_toNat hk, lengthByte_toNat hn, hc, Nat.add_assoc]

/-- Decoding CRYPT: `ILEN`, `OLEN`, then `ILEN` bytes (R69). -/
theorem decode_crypt {ilen olen input : List Byte} (hi : ilen.length = 4) (ho : olen.length = 4)
    (h : input.length = (load32le ilen 0).toNat) (rest : List Byte) :
    decode (header .crypt 0 0 ++ (ilen ++ olen ++ input ++ rest)) = .packet (.crypt (load32le olen 0) input) rest := by
  have lengths : (ilen ++ olen).length = 8 := by rw [List.length_append, hi, ho]
  have atIlen : load32le (ilen ++ olen ++ input) 0 = load32le ilen 0 := by
    rw [List.append_assoc, load32le_append_left (by omega)]
  have atOlen : load32le (ilen ++ olen ++ input) 4 = load32le olen 0 := by
    rw [load32le_append_left (by omega), ← hi, ← Nat.add_zero ilen.length, load32le_append_right]
  have atInput : slice (ilen ++ olen ++ input) 8 (8 + input.length) = input :=
    slice_append_last lengths (by rw [List.length_append, lengths])
  rw [decode_packet (fieldsFit_zero _)]
  · simp only [assemble, atIlen, atOlen, ← h, atInput]
  · have long : ¬ (ilen ++ olen ++ input).length < 8 := by rw [List.length_append, lengths]; omega
    rw [IsBody, bodyLength, if_neg long, atIlen, ← h, List.length_append, lengths]

/-- Decoding DESTROY and STATUS: the header is the packet (R63). -/
theorem decode_destroy (rest : List Byte) : decode (header .destroy 0 0 ++ rest) = .packet .destroy rest :=
  decode_packet (op := .destroy) (body := []) (fieldsFit_zero _) rfl rest

theorem decode_status (rest : List Byte) : decode (header .status 0 0 ++ rest) = .packet .status rest :=
  decode_packet (op := .status) (body := []) (fieldsFit_zero _) rfl rest

/-- Settles O11: the forms are the headers and bodies of the decoder's laws, command by command. -/
theorem eachPacketFormDecodesToItsCommand : Obligations.EachPacketFormDecodesToItsCommand :=
  ⟨fun a b c d _ rest h => decode_qr a b c d h rest, fun _ rest h => decode_permute h rest,
    fun _ _ rest hk hn => decode_hsalsa hk hn rest, fun _ _ _ rest hc hk hn => decode_init hc hk hn rest,
    fun _ _ _ rest hi ho h => decode_crypt hi ho h rest, decode_destroy, decode_status⟩

/-- Settles O13: the encoder writes the packet forms, and each operand is loaded back from where it was stored. -/
theorem decodeOfEncodeIsTheCommand : Obligations.DecodeOfEncodeIsTheCommand := by
  intro i rest wf
  cases i with
  | qr a b c d x => exact (decode_qr a b c d (length_bytesLe x) rest).trans (by rw [wordsLe_bytesLe])
  | permute x => exact (decode_permute (length_bytesLe x) rest).trans (by rw [wordsLe_bytesLe])
  | hsalsa key nonce =>
    obtain ⟨hk, hn⟩ : key.length ≤ 255 ∧ nonce.length ≤ 255 := by simpa [Instr.wf] using wf
    exact decode_hsalsa hk hn rest
  | init c key nonce =>
    obtain ⟨hk, hn⟩ : key.length ≤ 255 ∧ nonce.length ≤ 255 := by simpa [Instr.wf] using wf
    have counter : load64le (store64le c) 0 = c := by simpa using load64le_store64le_append c []
    exact (decode_init (length_store64le c) hk hn rest).trans (by rw [counter])
  | crypt olen input =>
    have short : input.length < 2 ^ 32 := by simpa [Instr.wf] using wf
    have length : input.length = (load32le (store32le (BitVec.ofNat 32 input.length)) 0).toNat := by
      rw [load32le_store32le, BitVec.toNat_ofNat, Nat.mod_eq_of_lt short]
    exact (decode_crypt (length_store32le _) (length_store32le olen) length rest).trans (by rw [load32le_store32le])
  | destroy => exact decode_destroy rest
  | status => exact decode_status rest

/-- A slice ends at or before the end of its string, so one that fits has its own length (R12). -/
theorem length_slice_of_le {b : List Byte} {lo hi : Nat} (h : hi ≤ b.length) : (slice b lo hi).length = hi - lo := by
  rw [length_slice, Nat.min_eq_left h]

/-- Slices that meet are the slice over both (R12). -/
theorem take_append_slice (b : List Byte) {lo hi : Nat} (h : lo ≤ hi) : b.take lo ++ slice b lo hi = b.take hi := by
  calc b.take lo ++ slice b lo hi
      = (b.take hi).take lo ++ (b.take hi).drop lo := by rw [List.take_take, Nat.min_eq_left h, slice]
    _ = b.take hi := List.take_append_drop lo (b.take hi)

/-- The slices two declared lengths cut off the rest of a body have those lengths, and with what stands before them they
are the body (R66, R67). -/
theorem declared_slices {b : List Byte} {f1 f2 : Byte} {lo mid : Nat} (first : lo + f1.toNat = mid)
    (second : mid + f2.toNat = b.length) :
    lengthByte (slice b lo mid) = f1 ∧ lengthByte (slice b mid (mid + f2.toNat)) = f2
      ∧ (declarable (slice b lo mid) && declarable (slice b mid (mid + f2.toNat))) = true
      ∧ b.take lo ++ slice b lo mid ++ slice b mid (mid + f2.toNat) = b := by
  have length1 : (slice b lo mid).length = f1.toNat := (length_slice_of_le (by omega)).trans (by omega)
  have length2 : (slice b mid (mid + f2.toNat)).length = f2.toNat := (length_slice_of_le second.le).trans (by omega)
  refine ⟨lengthByte_of_length length1, lengthByte_of_length length2, ?_, ?_⟩
  · simp only [Bool.and_eq_true, declarable_iff, length1, length2]
    exact ⟨Nat.le_of_lt_succ f1.isLt, Nat.le_of_lt_succ f2.isLt⟩
  · rw [take_append_slice b (by omega), take_append_slice b (by omega), List.take_of_length_le second.ge]

/-- The command assembled of a legal header and its body is well-formed, and its packet is that header and body. -/
theorem encode_assemble {op : Opcode} {f1 f2 : Byte} {body : List Byte} (fields : FieldsFit op f1 f2)
    (h : IsBody op f1 f2 body) :
    (assemble op (headerWord op f1 f2) body).wf = true
      ∧ encode (assemble op (headerWord op f1 f2) body) = header op f1 f2 ++ body := by
  cases op with
  | qr =>
    have h64 : 64 = body.length := Option.some.inj h
    obtain ⟨low, high⟩ := indexByte_headerIndex .qr f1 f2
    simp only [assemble, Instr.wf, encode, low, high, bytesLe_wordsLe h64.symm, and_self]
  | permute =>
    have h64 : 64 = body.length := Option.some.inj h
    obtain ⟨rfl, rfl⟩ := fields (by decide)
    simp only [assemble, Instr.wf, encode, bytesLe_wordsLe h64.symm, and_self]
  | hsalsa =>
    have len : f1.toNat + f2.toNat = body.length := by simpa [IsBody, bodyLength] using h
    obtain ⟨key, nonce, wf, whole⟩ := declared_slices (Nat.zero_add f1.toNat) len
    rw [List.take_zero, List.nil_append] at whole
    simp only [assemble, headerF1_headerWord, headerF2_headerWord, encode, key, nonce, List.append_assoc, whole,
      and_true]
    exact wf
  | init =>
    have len : 8 + f1.toNat + f2.toNat = body.length := by simpa [IsBody, bodyLength] using h
    obtain ⟨key, nonce, wf, whole⟩ := declared_slices (rfl : 8 + f1.toNat = _) len
    have counter : store64le (load64le body 0) = body.take 8 := store64le_load64le_eq_take (by omega)
    rw [List.append_assoc] at whole
    simp only [assemble, headerF1_headerWord, headerF2_headerWord, encode, key, nonce, counter, List.append_assoc,
      whole, and_true]
    exact wf
  | crypt =>
    obtain ⟨rfl, rfl⟩ := fields (by decide)
    rw [IsBody, bodyLength] at h
    split_ifs at h with short
    have len := Option.some.inj h
    have inputLength : (slice body 8 (8 + (load32le body 0).toNat)).length = (load32le body 0).toNat :=
      (length_slice_of_le len.le).trans (by omega)
    have whole : body.take 4 ++ ((body.drop 4).take 4 ++ slice body 8 (8 + (load32le body 0).toNat)) = body := by
      rw [← List.append_assoc, ← List.take_add, take_append_slice body (by omega), List.take_of_length_le len.ge]
    have ilen : store32le (load32le body 0) = body.take 4 := store32le_load32le_eq_take (by omega)
    have olen : store32le (load32le body 4) = (body.drop 4).take 4 := store32le_load32le_eq_take (by omega)
    simp only [assemble, encode, inputLength, BitVec.ofNat_toNat, BitVec.setWidth_eq, ilen, olen,
      List.append_assoc, whole, and_true]
    simp only [Instr.wf, sendable_iff, inputLength]
    exact (load32le body 0).isLt
  | destroy | status =>
    obtain ⟨rfl, rfl⟩ := fields (by decide)
    obtain rfl : body = [] := List.length_eq_zero_iff.mp (Option.some.inj h).symm
    exact ⟨rfl, rfl⟩

/-- Settles O14: what was taken off the stream is a legal header and its body, which are the packet of the command
assembled of them. -/
theorem encodeOfDecodeIsThePacket : Obligations.EncodeOfDecodeIsThePacket := by
  intro bytes rest i h
  obtain ⟨op, f1, f2, body, fields, isBody, rfl, rfl⟩ := exists_packet_of_decode h
  obtain ⟨wf, packet⟩ := encode_assemble fields isBody
  exact ⟨wf, by rw [packet, List.append_assoc]⟩

/-- Settles O12: each packet is closed and short, so the decoder is run on it. -/
theorem headerWordsOfTheSpecDecode : Obligations.HeaderWordsOfTheSpecDecode := by
  unfold Obligations.HeaderWordsOfTheSpecDecode
  refine ⟨?_, ?_, ?_, ?_, ?_, ?_, ?_, ?_⟩ <;> decide

end Sys2Proof.Proofs
end

section
/-! PROOFS. The step on whole packets, on partial ones and on runs of packets (20_memory.md R42, R43, R51): a command
neither reads nor moves the streams beyond appending its answer. -/

namespace Sys2Proof.Proofs

open Sys2Proof Sys2Proof.Machine

/-! ### The streams do not enter a command -/

/-- The same context with other streams. -/
def withStreams (s : State) (cmd rsp : List Byte) : State := { s with cmd, rsp }

/-- A byte of CRYPT reads and writes the context alone. -/
theorem cryptByte_withStreams (b : Byte) (s : State) (cmd rsp : List Byte) :
    cryptByte b (withStreams s cmd rsp) = ((cryptByte b s).1, withStreams (cryptByte b s).2 cmd rsp) := by
  have refilled : refill (withStreams s cmd rsp) = withStreams (refill s) cmd rsp := by
    by_cases empty : s.pos = 0
    · rw [refill_of_zero s empty, refill_of_zero (withStreams s cmd rsp) empty]
      rfl
    · rw [refill_of_ne s empty, refill_of_ne (withStreams s cmd rsp) empty]
  rw [cryptByte, refilled]
  rfl

/-- The byte loop of CRYPT reads and writes the context alone. -/
theorem cryptLoop_withStreams (bs : List Byte) (s : State) (cmd rsp : List Byte) :
    cryptLoop bs (withStreams s cmd rsp) = ((cryptLoop bs s).1, withStreams (cryptLoop bs s).2 cmd rsp) := by
  induction bs generalizing s with
  | nil => rfl
  | cons b bs ih => rw [cryptLoop_cons, cryptByte_withStreams, ih, cryptLoop_cons]

/-- What a command other than CRYPT writes to the context, whatever the context was: nothing, the words, `MODE` and
`POS` of an INIT, or zeros. -/
inductive ContextWrite : (State → State) → Prop
  | keep : ContextWrite id
  | lay (words : Block) (mode : Mode) : ContextWrite fun s => ((s.setS words).setMode mode).setPos 0
  | clear : ContextWrite zeroise

/-- `MODE` and `POS` fix the answer of a command other than CRYPT; what it writes to the context is fixed by its operands
alone. -/
theorem exec_of_ne_crypt {i : Instr} (notCrypt : ∀ olen input, i ≠ .crypt olen input) (mode : Mode) (pos : BitVec 6) :
    ∃ (f : State → State) (r : List Byte), ContextWrite f
      ∧ ∀ s : State, s.mode = mode → s.pos = pos → exec i s = .next ((f s).rspWrite r) := by
  cases i with
  | qr a b c d x => exact ⟨id, _, .keep, fun s _ _ => exec_qr a b c d x s⟩
  | permute x => exact ⟨id, _, .keep, fun s _ _ => exec_permute x s⟩
  | hsalsa key nonce =>
    by_cases sizes : key.length = 32 ∧ nonce.length = 16
    · obtain ⟨hk, hn⟩ := sizes
      exact ⟨id, _, .keep, fun s _ _ => exec_hsalsa_accepted s hk hn⟩
    · exact ⟨id, _, .keep, fun s _ _ => exec_hsalsa_rejected s (not_and_or.mp sizes)⟩
  | init c key nonce =>
    by_cases accepted : initAccepted key nonce
    · obtain ⟨layout, hl⟩ := layoutOf_effective key nonce accepted
      exact ⟨_, _, .lay _ layout.mode, fun s _ _ => exec_init_accepted c key nonce s accepted layout hl⟩
    · by_cases short : key.length < 32
      · exact ⟨id, _, .keep, fun s _ _ => exec_init_shortKey c key nonce s short⟩
      · exact ⟨id, _, .keep, fun s _ _ => exec_init_badNonce c key nonce s (Nat.le_of_not_lt short) accepted⟩
  | crypt olen input => exact absurd rfl (notCrypt olen input)
  | destroy => exact ⟨zeroise, _, .clear, fun s _ _ => exec_destroy s⟩
  | status =>
    refine ⟨id, 0x00 :: 0x13 :: 0 :: 0 :: store32le (statusWord mode pos), .keep, ?_⟩
    rintro s rfl rfl
    exact exec_status s

/-- What CRYPT answers and the context it leaves are the same for all streams (R51 item 2). -/
theorem exec_crypt_withStreams (olen : Word) (input : List Byte) (s : State) : ∃ (t : State) (r : List Byte),
    ∀ cmd rsp, exec (.crypt olen input) (withStreams s cmd rsp) = .next (withStreams t cmd (rsp ++ r)) := by
  obtain ⟨small, -⟩ | ⟨fits, idle, -⟩ | ⟨fits, live, -⟩ := exec_crypt_cases olen input s
  · exact ⟨s, _, fun cmd rsp => exec_crypt_tooSmall olen input (withStreams s cmd rsp) small⟩
  · exact ⟨s, _, fun cmd rsp => exec_crypt_notReady olen input (withStreams s cmd rsp) fits idle⟩
  · refine ⟨(cryptLoop input s).2, 0x00 :: 0x11 :: 0 :: 0 :: (cryptLoop input s).1, fun cmd rsp => ?_⟩
    rw [exec_crypt_loop olen input (withStreams s cmd rsp) fits live, cryptLoop_withStreams]
    rfl

/-- What a command answers and the context it leaves are the same for all streams: it leaves the command stream and
appends to the response stream (R51 item 2). -/
theorem exec_withStreams (i : Instr) (s : State) : ∃ (t : State) (r : List Byte), ∀ cmd rsp,
    exec i (withStreams s cmd rsp) = .next (withStreams t cmd (rsp ++ r)) := by
  by_cases crypt : ∃ olen input, i = .crypt olen input
  · obtain ⟨olen, input, rfl⟩ := crypt
    exact exec_crypt_withStreams olen input s
  · obtain ⟨f, r, write, run⟩ := exec_of_ne_crypt (fun olen input e => crypt ⟨olen, input, e⟩) s.mode s.pos
    refine ⟨f s, r, fun cmd rsp => (run (withStreams s cmd rsp) rfl rfl).trans ?_⟩
    cases write <;> rfl

/-- A state in the same context is that context with streams of its own. -/
theorem eq_withStreams_of_sameContext {s s' : State} (same : s.sameContext s') : s' = withStreams s s'.cmd s'.rsp := by
  obtain ⟨hS, hK, hpos, hmode⟩ := same
  exact State.ext_fields hS hK hpos hmode rfl rfl

/-- Settles O51: both states are the one context with streams of its own. -/
theorem answerIsDeterminedByContextAndCommand : Obligations.AnswerIsDeterminedByContextAndCommand := by
  intro i s s' same
  obtain ⟨t, r, run⟩ := exec_withStreams i s
  have run' : exec i s' = .next (withStreams t s'.cmd (s'.rsp ++ r)) :=
    (congrArg (exec i) (eq_withStreams_of_sameContext same)).trans (run s'.cmd s'.rsp)
  exact ⟨_, _, r, run s.cmd s.rsp, run', rfl, rfl, ⟨rfl, rfl, rfl, rfl⟩⟩

/-- What stands on the command stream behind a command's packet does not change what the command does. -/
theorem exec_setCmd {i : Instr} {s t : State} (run : exec i s = .next t) (bytes : List Byte) :
    exec i (s.setCmd bytes) = .next (t.setCmd bytes) := by
  obtain ⟨u, r, all⟩ := exec_withStreams i s
  cases run.symm.trans (all s.cmd s.rsp)
  exact all bytes s.rsp

/-! ### Whole packets -/

/-- Settles O16: the decoder gives the command back, and the step runs what the decoder gives. -/
theorem stepRunsTheDecodedCommand : Obligations.StepRunsTheDecodedCommand := by
  intro s i rest wf front
  have decoded : decode s.cmd = .packet i rest := by
    rw [front, decodeOfEncodeIsTheCommand i rest wf]
  exact ⟨decoded, step_of_packet decoded⟩

/-- A command always completes. -/
theorem exec_total (i : Instr) (s : State) : ∃ t, exec i s = .next t := by
  obtain ⟨t, _, run, -⟩ := exec_response i s
  exact ⟨t, run⟩

/-- A command leaves the command stream alone. -/
theorem exec_cmd {i : Instr} {s t : State} (run : exec i s = .next t) : t.cmd = s.cmd := by
  obtain ⟨_, _, run', cmd, -⟩ := exec_response i s
  cases run.symm.trans run'
  exact cmd

/-- Settles O20: a hold and an illegal header answer next by themselves, a packet because its command completes. -/
theorem everyStepAnswersNext : Obligations.EveryStepAnswersNext := by
  intro s
  obtain ⟨-, e⟩ | ⟨_, _, -, e⟩ | ⟨i, rest, -, e⟩ := step_cases s
  · exact ⟨_, e⟩
  · exact ⟨_, e⟩
  · rw [e]
    exact exec_total i (s.setCmd rest)

/-- A run goes on from the state its first step answers. -/
theorem run_succ_of_step {s t : State} (h : step s = .next t) (k : Nat) :
    Host.Core.run core (k + 1) s = Host.Core.run core k t := by
  have first : core.step s = .next t := h
  simp only [Host.Core.run, first]

/-- Settles O19: by induction on the commands; the step of the first packet is its command, and the packets behind it
wait on the command stream. -/
theorem runOfPacketsIsTheFoldOfTheirCommands : Obligations.RunOfPacketsIsTheFoldOfTheirCommands := by
  intro is s rest wf
  induction is generalizing s with
  | nil => exact ⟨s, rfl, rfl⟩
  | cons i is ih =>
    obtain ⟨u, run⟩ := exec_total i s
    obtain ⟨t, fold, steps⟩ := ih u fun j hj => wf j (List.mem_cons_of_mem i hj)
    have first : step (s.setCmd ((i :: is).flatMap encode ++ rest)) = .next (u.setCmd (is.flatMap encode ++ rest)) := by
      have front : (i :: is).flatMap encode ++ rest = encode i ++ (is.flatMap encode ++ rest) := by simp
      rw [(stepRunsTheDecodedCommand _ i _ (wf i List.mem_cons_self) front).2]
      exact exec_setCmd run _
    exact ⟨t, by rw [runCommands, run]; exact fold, (run_succ_of_step first is.length).trans steps⟩

/-! ### Partial packets and later bytes -/

/-- Where the decoder finds no whole packet the step changes nothing (R43). -/
theorem step_of_hold {s : State} (h : decode s.cmd = .hold) : step s = .next s := by
  obtain ⟨-, e⟩ | ⟨_, _, front, -⟩ | ⟨_, _, front, -⟩ := step_cases s
  · exact e
  all_goals cases h.symm.trans front

/-- Bytes appended later are left behind the packet at the front. -/
theorem decode_packet_append {bytes rest : List Byte} {i : Instr} (h : decode bytes = .packet i rest)
    (more : List Byte) : decode (bytes ++ more) = .packet i (rest ++ more) := by
  obtain ⟨wf, rfl⟩ := encodeOfDecodeIsThePacket bytes rest i h
  rw [List.append_assoc]
  exact decodeOfEncodeIsTheCommand i (rest ++ more) wf

/-- Bytes appended later are left behind the illegal header at the front. -/
theorem decode_illegal_append {bytes rest : List Byte} {hw : Word} (h : decode bytes = .illegal hw rest)
    (more : List Byte) : decode (bytes ++ more) = .illegal hw (rest ++ more) := by
  obtain ⟨h4, rfl, unselected, rfl⟩ := decode_eq_illegal h
  match bytes, h4 with
  | h0 :: h1 :: h2 :: h3 :: tail, _ =>
    exact decode_of_headerIllegal (tail ++ more) ((selectRow_eq_none_iff h0 h1 h2 h3 tail).mp unselected)

/-- A packet cut short is held: were it a packet or an illegal header, so would the whole packet be, with bytes
left over. -/
theorem decode_take_encode {i : Instr} {k : Nat} (wf : i.wf = true) (short : k < (encode i).length) :
    decode ((encode i).take k) = .hold := by
  have whole : decode ((encode i).take k ++ (encode i).drop k) = .packet i [] := by
    rw [List.take_append_drop]
    simpa using decodeOfEncodeIsTheCommand i [] wf
  cases front : decode ((encode i).take k) with
  | hold => rfl
  | illegal hw rest => cases (decode_illegal_append front _).symm.trans whole
  | packet j rest =>
    have left := (decode_packet_append front _).symm.trans whole
    have none : (encode i).drop k = [] := (List.append_eq_nil_iff.mp (Decoded.packet.inj left).2).2
    exact absurd (List.drop_eq_nil_iff.mp none) (Nat.not_le.mpr short)

/-- Settles O17: three bytes or fewer are no header, and a packet cut short is no packet. -/
theorem partialPacketHolds : Obligations.PartialPacketHolds := by
  refine ⟨fun s => step_of_hold, fun s short => ?_, fun i s k wf short front => ?_⟩
  · exact step_of_hold (if_pos short)
  · exact step_of_hold (front ▸ decode_take_encode wf short)

/-- Settles O18: a front that is not held decodes as before, and neither an illegal header's answer nor a command's
meets the bytes behind it. -/
theorem laterBytesDoNotChangeTheFrontPacket : Obligations.LaterBytesDoNotChangeTheFrontPacket := by
  refine ⟨fun _ more _ _ h => decode_packet_append h more, fun _ more _ _ h => decode_illegal_append h more, ?_⟩
  intro s t more notHeld run
  cases front : decode s.cmd with
  | hold => exact absurd front notHeld
  | illegal hw rest =>
    have later : decode (s.append more).cmd = .illegal hw (rest ++ more) := decode_illegal_append front more
    cases (step_of_illegal front).symm.trans run
    rw [step_of_illegal later]
    obtain ⟨h4, -, -, -⟩ := decode_eq_illegal front
    rw [State.append_cmd, byteAt_append_left (by omega)]
    rfl
  | packet i rest =>
    have later : decode (s.append more).cmd = .packet i (rest ++ more) := decode_packet_append front more
    have runs : exec i (s.setCmd rest) = .next t := (step_of_packet front).symm.trans run
    have behind : t.append more = t.setCmd (rest ++ more) := by rw [State.append, exec_cmd runs, State.setCmd_cmd]
    rw [step_of_packet later, behind]
    exact exec_setCmd runs (rest ++ more)

end Sys2Proof.Proofs
end

section
/-! PROOFS. Frames and invariants (10_state.md R33, section 9): the four things a command can do to the context, and from
them what stays, what holds between commands, and what a unit without a context can do. -/

namespace Sys2Proof.Proofs

open Sys2Proof Sys2Proof.Machine

/-! ### What a command does to the context -/

/-- All a command can do to the context of `s`, `t` being the state it leaves: nothing; the whole of an INIT that
succeeds; a run of CRYPT's byte loop; zeroising (10_state.md section 9). -/
inductive ContextChange (s t : State) : Instr → Prop
  | keep {i : Instr} (same : s.sameContext t) : ContextChange s t i
  | init {c : BitVec 64} {key nonce : List Byte} (layout : Layout) (accepted : initAccepted key nonce)
      (words : t.S = initWords layout (effectiveKeyNonce key nonce).1 (effectiveKeyNonce key nonce).2 c)
      (K_eq : t.K = s.K) (pos_eq : t.pos = 0) (mode_eq : t.mode = layout.mode) : ContextChange s t (.init c key nonce)
  | crypt {olen : Word} {input : List Byte} (fits : input.length ≤ olen.toNat) (live : s.mode ≠ .idle)
      (after : (cryptLoop input s).2.sameContext t) : ContextChange s t (.crypt olen input)
  | destroy (cleared : State.reset.sameContext t) : ContextChange s t .destroy

/-- An answer alone leaves the context. -/
theorem sameContext_rspWrite (s : State) (r : List Byte) : s.sameContext (s.rspWrite r) := ⟨rfl, rfl, rfl, rfl⟩

/-- Every command does one of the four. QR, PERMUTE, HSALSA and STATUS have the first case only. -/
theorem exec_contextChange {i : Instr} {s t : State} (run : exec i s = .next t) : ContextChange s t i := by
  cases i with
  | qr a b c d x => cases (exec_qr a b c d x s).symm.trans run; exact .keep (sameContext_rspWrite s _)
  | permute x => cases (exec_permute x s).symm.trans run; exact .keep (sameContext_rspWrite s _)
  | hsalsa key nonce =>
    cases (exec_hsalsa key nonce s).symm.trans run
    split_ifs <;> exact .keep (sameContext_rspWrite s _)
  | init c key nonce =>
    obtain ⟨layout, accepted, -, e⟩ | ⟨-, -, e⟩ | ⟨-, -, e⟩ := exec_init_cases c key nonce s <;>
      cases e.symm.trans run
    · exact .init layout accepted rfl rfl rfl rfl
    · exact .keep (sameContext_rspWrite s _)
    · exact .keep (sameContext_rspWrite s _)
  | crypt olen input =>
    obtain ⟨-, e⟩ | ⟨-, -, e⟩ | ⟨fits, live, e⟩ := exec_crypt_cases olen input s <;> cases e.symm.trans run
    · exact .keep (sameContext_rspWrite s _)
    · exact .keep (sameContext_rspWrite s _)
    · exact .crypt fits live (sameContext_rspWrite _ _)
  | destroy => cases (exec_destroy s).symm.trans run; exact .destroy ⟨rfl, rfl, rfl, rfl⟩
  | status => cases (exec_status s).symm.trans run; exact .keep (sameContext_rspWrite s _)

/-! ### Which words stay -/

/-- The byte loop leaves every word of `S` that the counter increment of its `MODE` leaves. -/
theorem cryptLoop_S_getElem {s : State} {j : Fin 16} (fixed : ∀ S, (ctrInc s.mode S)[j] = S[j]) (input : List Byte) :
    (cryptLoop input s).2.S[j] = s.S[j] := by
  have iterate : ∀ n, ((ctrInc s.mode)^[n] s.S)[j] = s.S[j] := by
    intro n
    induction n with
    | zero => rfl
    | succ n ih => rw [Function.iterate_succ_apply', fixed, ih]
  rw [(cryptLoop_afterBytes s input).2.S_eq, iterate]

/-- A command that does not write `MODE` leaves every word of `S` that the counter increment leaves. -/
theorem exec_S_getElem {i : Instr} {s t : State} {j : Fin 16} (hi : ¬ i.setsMode)
    (fixed : ∀ S, (ctrInc s.mode S)[j] = S[j]) (run : exec i s = .next t) : t.S[j] = s.S[j] := by
  cases exec_contextChange run with
  | keep same =>
    obtain ⟨S_eq, -⟩ := same
    rw [S_eq]
  | init _ accepted => exact absurd accepted hi
  | crypt _ _ after =>
    obtain ⟨S_eq, -⟩ := after
    rw [S_eq, cryptLoop_S_getElem fixed]
  | destroy => exact absurd trivial hi

/-- A step whose front does not write `MODE` leaves every word of `S` that the counter increment leaves. -/
theorem step_S_getElem {s t : State} {j : Fin 16} (hi : ∀ i rest, decode s.cmd = .packet i rest → ¬ i.setsMode)
    (fixed : ∀ S, (ctrInc s.mode S)[j] = S[j]) (run : step s = .next t) : t.S[j] = s.S[j] := by
  obtain ⟨-, e⟩ | ⟨_, _, -, e⟩ | ⟨i, rest, front, e⟩ := step_cases s
  · cases e.symm.trans run; rfl
  · cases e.symm.trans run; rfl
  · exact exec_S_getElem (s := s.setCmd rest) (hi i rest front) fixed (e.symm.trans run)

/-- The increment leaves every word but 8 and 9 (R33 item 3). -/
theorem ctrInc_getElem_fin (mode : Mode) {j : Fin 16} (h8 : j ≠ 8) (h9 : j ≠ 9) (S : Block) :
    (ctrInc mode S)[j] = S[j] :=
  ctrInc_getElem_other mode S j j.isLt (Fin.val_ne_of_ne h8) (Fin.val_ne_of_ne h9)

/-- Outside N8 and N12 the increment leaves word 9 alone (R116). -/
theorem ctrInc_getElem_nine {mode : Mode} (n8 : mode ≠ .n8) (n12 : mode ≠ .n12) (S : Block) :
    (ctrInc mode S)[9] = S[9] := by
  cases mode with
  | idle | n16 => rfl
  | n8 => exact absurd rfl n8
  | n12 => exact absurd rfl n12

/-- Settles O47: the words a step keeps are those the increment of the layout in force keeps. -/
theorem keyAndNonceWordsStay : Obligations.KeyAndNonceWordsStay := by
  intro s t run hi
  exact ⟨fun j h8 h9 => step_S_getElem hi (ctrInc_getElem_fin s.mode h8 h9) run,
    fun n8 => step_S_getElem (j := 8) hi (fun S => ctrInc_getElem_eight s.mode S n8) run,
    fun n8 n12 => step_S_getElem (j := 9) hi (ctrInc_getElem_nine n8 n12) run⟩

/-- A command appends to the response stream. -/
theorem exec_rsp {i : Instr} {s t : State} (run : exec i s = .next t) : ∃ r, t.rsp = s.rsp ++ r := by
  obtain ⟨_, _, run', -, rsp, -⟩ := exec_response i s
  cases run.symm.trans run'
  exact ⟨_, rsp⟩

/-- Settles O45: the streams by the response of each command, the objects by the four changes of the context. -/
theorem commandsWriteOnlyTheirObjects : Obligations.CommandsWriteOnlyTheirObjects := by
  intro i s t run
  refine ⟨exec_cmd run, exec_rsp run, ?_⟩
  cases exec_contextChange run with
  | keep same =>
    obtain ⟨hS, hK, hpos, hmode⟩ := same
    cases i with
    | qr | permute | hsalsa | status => exact ⟨hS, hK, hpos, hmode⟩
    | init => exact ⟨hK, fun _ => ⟨hS, hK, hpos, hmode⟩⟩
    | crypt => exact ⟨hmode, fun j _ _ => by rw [hS], fun _ => ⟨hS, hK, hpos, hmode⟩⟩
    | destroy => trivial
  | init _ accepted _ hK => exact ⟨hK, fun rejected => absurd accepted rejected⟩
  | @crypt olen input fits live after =>
    obtain ⟨hS, -, -, hmode⟩ := id after
    refine ⟨hmode.trans (cryptLoop_mode input s), fun j h8 h9 => ?_, ?_⟩
    · rw [hS, cryptLoop_S_getElem (ctrInc_getElem_fin s.mode h8 h9)]
    · rintro (rfl | small | idle)
      · exact after
      · exact absurd small (Nat.not_lt.mpr fits)
      · exact absurd idle live
  | destroy => trivial

/-! ### The invariants -/

/-- The invariants speak of the context alone. -/
theorem inv_of_sameContext {s t : State} (inv : s.Inv) (same : s.sameContext t) : t.Inv := by
  rw [eq_withStreams_of_sameContext same]
  exact ⟨inv.idleClear, inv.constants, inv.blockCurrent⟩

/-- Settles O48: IDLE with everything 0; the other two invariants ask for a live context. -/
theorem resetMeetsTheInvariants : Obligations.ResetMeetsTheInvariants :=
  ⟨fun _ => ⟨rfl, rfl, rfl⟩, fun live => absurd rfl live, fun live => absurd rfl live⟩

/-- The counter increment leaves the constant words (R22, R116). -/
theorem constantsHeld_ctrInc {S : Block} (mode : Mode) (h : constantsHeld S) : constantsHeld (ctrInc mode S) := by
  have keeps : ∀ (i : Nat) (hi : i < 16), i ≠ 8 → i ≠ 9 → (ctrInc mode S)[i] = S[i] :=
    ctrInc_getElem_other mode S
  unfold constantsHeld
  rw [keeps 0, keeps 5, keeps 10, keeps 15]
  · exact h
  all_goals decide

/-- After the refill the block in `K` is the block of `S` one increment ago, whatever `POS` is (R115, R119). -/
theorem refill_inv {s : State} (inv : s.Inv) (live : s.mode ≠ .idle) :
    constantsHeld (refill s).S ∧ ∃ P : Block, (refill s).S = ctrInc s.mode P ∧ (refill s).K = keyBlock P := by
  by_cases empty : s.pos = 0
  · rw [refill_of_zero s empty]
    exact ⟨constantsHeld_ctrInc s.mode (inv.constants live), s.S, rfl, rfl⟩
  · rw [refill_of_ne s empty]
    exact ⟨inv.constants live, inv.blockCurrent live empty⟩

/-- A byte of CRYPT keeps the invariants of a live context. -/
theorem cryptByte_inv {s : State} (inv : s.Inv) (live : s.mode ≠ .idle) (b : Byte) : (cryptByte b s).2.Inv := by
  obtain ⟨constants, P, S_eq, K_eq⟩ := refill_inv inv live
  have mode : ((refill s).setPos (s.pos + 1)).mode = s.mode := refill_mode s
  rw [cryptByte_snd]
  exact ⟨fun idle => absurd (mode.symm.trans idle) live, fun _ => constants,
    fun _ _ => ⟨P, mode.symm ▸ S_eq, K_eq⟩⟩

/-- CRYPT's byte loop keeps the invariants of a live context. -/
theorem cryptLoop_inv {s : State} (inv : s.Inv) (live : s.mode ≠ .idle) (input : List Byte) :
    (cryptLoop input s).2.Inv := by
  induction input generalizing s with
  | nil => exact inv
  | cons b bs ih =>
    have live' : (cryptByte b s).2.mode ≠ .idle := by
      rw [cryptByte_snd, State.setPos_mode, refill_mode]
      exact live
    exact ih (cryptByte_inv inv live b) live'

/-- The words an INIT lays out have the constants in place (R22). -/
theorem constantsHeld_initWords (layout : Layout) (k n : List Byte) (c : BitVec 64) :
    constantsHeld (initWords layout k n c) := by
  obtain ⟨w8, w9, words⟩ := initWords_eq_layoutWords layout k n c
  exact words ▸ layoutWords_constants k _ _ w8 w9

/-- Every command keeps the invariants. -/
theorem exec_inv {i : Instr} {s t : State} (inv : s.Inv) (run : exec i s = .next t) : t.Inv := by
  cases exec_contextChange run with
  | keep same => exact inv_of_sameContext inv same
  | init layout _ words _ pos_eq mode_eq =>
    exact ⟨fun idle => absurd (mode_eq.symm.trans idle) (layout_mode_ne_idle layout),
      fun _ => words ▸ constantsHeld_initWords .., fun _ used => absurd pos_eq used⟩
  | crypt _ live after => exact inv_of_sameContext (cryptLoop_inv inv live _) after
  | destroy cleared => exact inv_of_sameContext resetMeetsTheInvariants cleared

/-- Settles O49: a hold and an illegal header leave the context, a packet's command keeps the invariants. -/
theorem everyStepKeepsTheInvariants : Obligations.EveryStepKeepsTheInvariants := by
  intro s t inv run
  obtain ⟨-, e⟩ | ⟨_, _, -, e⟩ | ⟨i, rest, -, e⟩ := step_cases s
  · cases e.symm.trans run
    exact inv
  · cases e.symm.trans run
    exact inv_of_sameContext inv ⟨rfl, rfl, rfl, rfl⟩
  · exact exec_inv (s := s.setCmd rest) (inv_of_sameContext inv ⟨rfl, rfl, rfl, rfl⟩) (e.symm.trans run)

/-! ### The host's moves -/

/-- Settles O55: each move writes one stream. -/
theorem hostMovesLeaveTheContextAlone : Obligations.HostMovesLeaveTheContextAlone := by
  refine ⟨fun s a b => ⟨⟨rfl, rfl, rfl, rfl⟩, rfl, rfl, ?_⟩, fun s n m => ⟨⟨rfl, rfl, rfl, rfl⟩, rfl, rfl, ?_⟩⟩
  · rw [State.append, State.append, State.append, State.setCmd_setCmd, State.setCmd_cmd, List.append_assoc]
  · rw [State.drain, State.drain, State.drain, List.drop_drop]

/-- The host's moves keep the invariants. -/
theorem hostMove_inv {s : State} (inv : s.Inv) (m : HostMove) : (m.apply s).Inv := by
  cases m with
  | append bytes => exact inv_of_sameContext inv ⟨rfl, rfl, rfl, rfl⟩
  | drain n => exact inv_of_sameContext inv ⟨rfl, rfl, rfl, rfl⟩
  | reset => exact resetMeetsTheInvariants

/-- Settles O50: by induction on how the state is reached. -/
theorem everyReachableStateMeetsTheInvariants : Obligations.EveryReachableStateMeetsTheInvariants := by
  intro s reached
  induction reached with
  | reset => exact resetMeetsTheInvariants
  | step _ run inv => exact everyStepKeepsTheInvariants _ _ inv run
  | host m _ inv => exact hostMove_inv inv m

/-! ### No context without an INIT -/

/-- From IDLE only an INIT that succeeds gives a context. -/
theorem exec_keeps_idle {i : Instr} {s t : State} (idle : s.mode = .idle)
    (rejected : ∀ c key nonce, initAccepted key nonce → i ≠ .init c key nonce) (run : exec i s = .next t) :
    t.mode = .idle := by
  cases exec_contextChange run with
  | keep same =>
    obtain ⟨-, -, -, mode_eq⟩ := same
    exact mode_eq.trans idle
  | init _ accepted => exact absurd rfl (rejected _ _ _ accepted)
  | crypt _ live => exact absurd idle live
  | destroy cleared =>
    obtain ⟨-, -, -, mode_eq⟩ := cleared
    exact mode_eq

/-- A CRYPT without a context is refused, by its output's size or by `MODE` (R118). -/
theorem exec_crypt_of_idle {s : State} (idle : s.mode = .idle) (olen : Word) (input : List Byte) :
    exec (.crypt olen input) s
      = .next (s.rspWrite [if olen.toNat < input.length then 0x03 else 0x05, 0x11, 0, 0]) := by
  split_ifs with small
  · exact exec_crypt_tooSmall olen input s small
  · exact exec_crypt_notReady olen input s (Nat.le_of_not_lt small) idle

/-- Settles O54: by induction on the commands, each of which keeps IDLE. -/
theorem noContextWithoutInit : Obligations.NoContextWithoutInit := by
  intro is s idle rejected
  induction is generalizing s with
  | nil => exact ⟨s, rfl, idle, exec_crypt_of_idle idle⟩
  | cons i is ih =>
    obtain ⟨u, run⟩ := exec_total i s
    have idle' : u.mode = .idle :=
      exec_keeps_idle idle (fun c key nonce accepted e => rejected c key nonce accepted (e ▸ List.mem_cons_self)) run
    obtain ⟨t, fold, rest⟩ :=
      ih u idle' fun c key nonce accepted mem => rejected c key nonce accepted (List.mem_cons_of_mem i mem)
    exact ⟨t, by rw [runCommands, run]; exact fold, rest⟩

end Sys2Proof.Proofs
end

section
/-! PROOFS. Properties of the permutation core (40_permutation.md sections 1 to 3): the quarter-round in old values, the
order of quarter-rounds without a common word, bijectivity, and the command PERMUTE. -/

namespace Sys2Proof.Proofs

open Sys2Proof Sys2Proof.Machine

/-- Settles O4: each statement writes its own target, so what a later one reads is the one write to that word, or the old
value. -/
theorem quarterRoundOfDistinctIndices : Obligations.QuarterRoundOfDistinctIndices := by
  intro x a b c d distinct
  obtain ⟨⟨hab, hac, had⟩, ⟨hbc, hbd⟩, hcd⟩ : (a ≠ b ∧ a ≠ c ∧ a ≠ d) ∧ (b ≠ c ∧ b ≠ d) ∧ c ≠ d := by
    simpa using distinct
  refine ⟨?_, ?_, ?_, ?_, fun i other => ?_⟩
  case refine_5 =>
    obtain ⟨ha, hb, hc, hd⟩ : i ≠ a ∧ i ≠ b ∧ i ≠ c ∧ i ≠ d := by simpa using other
    simp only [quarterRound, mixWord_getElem_fin, if_neg ha, if_neg hb, if_neg hc, if_neg hd]
  all_goals
    simp only [quarterRound, mixWord_getElem_fin, if_true, if_neg hab, if_neg hac, if_neg had, if_neg hbc, if_neg hbd,
      if_neg hcd, if_neg hab.symm, if_neg hac.symm, if_neg had.symm, if_neg hbc.symm, if_neg hbd.symm, if_neg hcd.symm]

/-- Arrays with the same words are the same array. -/
theorem block_ext {x y : Block} (h : ∀ i : Fin 16, x[i] = y[i]) : x = y :=
  Vector.ext fun i hi => h ⟨i, hi⟩

/-- Two statements commute when neither writes a word of the other. -/
theorem mixWord_comm (x : Block) {t u v t' u' v' : Fin 16} (n n' : Nat) (h : t ∉ [t', u', v']) (h' : t' ∉ [t, u, v]) :
    mixWord (mixWord x t u v n) t' u' v' n' = mixWord (mixWord x t' u' v' n') t u v n := by
  obtain ⟨tt', tu', tv'⟩ : t ≠ t' ∧ t ≠ u' ∧ t ≠ v' := by simpa using h
  obtain ⟨-, t'u, t'v⟩ : t' ≠ t ∧ t' ≠ u ∧ t' ≠ v := by simpa using h'
  apply block_ext
  intro i
  simp only [mixWord_getElem_fin, if_neg tt', if_neg tt'.symm, if_neg tu'.symm, if_neg tv'.symm, if_neg t'u.symm,
    if_neg t'v.symm]
  split_ifs with it' it
  · exact absurd (it.symm.trans it') tt'
  all_goals rfl

/-- A statement commutes with a quarter-round on words it neither reads nor writes, and whose words it does not write:
it commutes with each of its four statements. -/
theorem mixWord_quarterRound_comm (x : Block) {t u v e f g h : Fin 16} (n : Nat)
    (disjoint : ∀ i ∈ [t, u, v], i ∉ [e, f, g, h]) :
    mixWord (quarterRound x e f g h) t u v n = quarterRound (mixWord x t u v n) e f g h := by
  have comm : ∀ (y : Block) {t' u' v' : Fin 16} (m : Nat), [t', u', v'] ⊆ [e, f, g, h] →
      mixWord (mixWord y t' u' v' m) t u v n = mixWord (mixWord y t u v n) t' u' v' m := by
    intro y t' u' v' m sub
    exact mixWord_comm y m n (fun mem => disjoint t' mem (sub List.mem_cons_self))
      (fun mem => disjoint t List.mem_cons_self (sub mem))
  simp only [quarterRound]
  rw [comm _ _ (by simp), comm _ _ (by simp), comm _ _ (by simp), comm _ _ (by simp)]

/-- The quarter-round as one expression (R90). -/
theorem quarterRound_eq (x : Block) (a b c d : Fin 16) : quarterRound x a b c d
    = mixWord (mixWord (mixWord (mixWord x b a d Config.rotB) c b a Config.rotC) d c b Config.rotD) a d c Config.rotA :=
  rfl

/-- Settles O6: each of the four statements of one quarter-round commutes with the other quarter-round. -/
theorem disjointQuarterRoundsCommute : Obligations.DisjointQuarterRoundsCommute := by
  intro x a b c d e f g h disjoint
  have comm : ∀ (y : Block) {t u v : Fin 16} (n : Nat), [t, u, v] ⊆ [a, b, c, d] →
      quarterRound (mixWord y t u v n) e f g h = mixWord (quarterRound y e f g h) t u v n :=
    fun y _ _ _ n sub => (mixWord_quarterRound_comm y n fun i mem => disjoint i (sub mem)).symm
  rw [quarterRound_eq x a b c d, quarterRound_eq _ a b c d]
  rw [comm _ _ (by simp), comm _ _ (by simp), comm _ _ (by simp), comm _ _ (by simp)]

/-- A statement that does not read its target back undoes itself: it XORs the same word in again. -/
theorem mixWord_involutive {t u v : Fin 16} (n : Nat) (tu : t ≠ u) (tv : t ≠ v) :
    Function.Involutive fun x => mixWord x t u v n := by
  intro x
  apply block_ext
  intro i
  simp only [mixWord_getElem_fin, if_neg tu.symm, if_neg tv.symm, if_true]
  split_ifs with it
  · rw [it, BitVec.xor_assoc, BitVec.xor_self, BitVec.xor_zero]
  · rfl

/-- The quarter-round of distinct indices is four statements that undo themselves (40_permutation.md section 3). -/
theorem quarterRound_bijective {a b c d : Fin 16} (distinct : [a, b, c, d].Nodup) :
    Function.Bijective fun x => quarterRound x a b c d := by
  obtain ⟨⟨hab, hac, had⟩, ⟨hbc, hbd⟩, hcd⟩ : (a ≠ b ∧ a ≠ c ∧ a ≠ d) ∧ (b ≠ c ∧ b ≠ d) ∧ c ≠ d := by
    simpa using distinct
  exact (mixWord_involutive _ had hac).bijective.comp <| (mixWord_involutive _ hcd.symm hbd.symm).bijective.comp <|
    (mixWord_involutive _ hbc.symm hac.symm).bijective.comp (mixWord_involutive _ hab.symm hbd).bijective

/-- Quarter-rounds on quadruples of distinct indices, one after the other, are a bijection. -/
theorem quarterRounds_bijective {quads : List (Fin 16 × Fin 16 × Fin 16 × Fin 16)}
    (distinct : ∀ q ∈ quads, [q.1, q.2.1, q.2.2.1, q.2.2.2].Nodup) : Function.Bijective (quarterRounds quads) := by
  induction quads with
  | nil => exact Function.bijective_id
  | cons q quads ih =>
    exact (ih fun r mem => distinct r (List.mem_cons_of_mem q mem)).comp
      (quarterRound_bijective (distinct q List.mem_cons_self))

/-- The double round is a bijection: the eight quadruples of R93 have distinct indices. -/
theorem dround_bijective : Function.Bijective dround := by
  have distinct : ∀ q ∈ Config.colQuads ++ Config.rowQuads, [q.1, q.2.1, q.2.2.1, q.2.2.2].Nodup := by
    simp [Config.colQuads, Config.rowQuads]
  rw [funext dround_eq]
  exact quarterRounds_bijective distinct

/-- The permutation is the double round iterated (R95). -/
theorem permute_eq_iterate (x : Block) : permute x = dround^[Config.doubleRounds] x := by
  rw [permute, drounds_eq_iterate]

/-- Settles O7: the permutation is the double round iterated. -/
theorem permutationIsBijective : Obligations.PermutationIsBijective := by
  refine ⟨fun a b c d => quarterRound_bijective, dround_bijective, ?_⟩
  rw [funext permute_eq_iterate]
  exact dround_bijective.iterate Config.doubleRounds

/-- Quarter-rounds leave the zero array as it is, because each does (R91, R93). -/
theorem quarterRounds_zero (quads : List (Fin 16 × Fin 16 × Fin 16 × Fin 16)) :
    quarterRounds quads Block.zero = Block.zero := by
  induction quads with
  | nil => rfl
  | cons q quads ih => rw [quarterRounds, List.foldl_cons, quarterRound_zero]; exact ih

/-- The permutation leaves the zero array as it is, because the double round does (R95). -/
theorem permute_zero : permute Block.zero = Block.zero := by
  rw [permute_eq_iterate]
  exact Function.iterate_fixed ((dround_eq _).trans (quarterRounds_zero _)) _

/-- Settles O9: what PERMUTE answers and the length of its packet are laws of the model. -/
theorem permuteAnswersThePermutation : Obligations.PermuteAnswersThePermutation := by
  refine ⟨fun x s => ⟨?_, rfl, Laws.EncodedLength.permute x⟩, permute_zero⟩
  simp only [exec_permute, State.rspWrite, List.cons_append, List.nil_append]

end Sys2Proof.Proofs
end

section
/-! PROOFS. The keystream (41_cipher_context.md R122, R124): the counter in closed form, the stream byte by byte, and what
a CRYPT's answer and the context after it depend on; INIT with a 24-byte nonce (42_hsalsa20.md section 3). -/

namespace Sys2Proof.Proofs

open Sys2Proof Sys2Proof.Machine

/-! ### CRYPT as a run of the loop -/

/-- Settles O35: the byte loop over no bytes is the state it was given. -/
theorem cryptOfNothingGeneratesNothing : Obligations.CryptOfNothingGeneratesNothing :=
  fun olen s live => exec_crypt_loop olen [] s (Nat.zero_le _) live

/-- The byte loop neither reads nor moves the responses already there. -/
theorem cryptLoop_rspWrite (bs : List Byte) (s : State) (r : List Byte) :
    cryptLoop bs (s.rspWrite r) = ((cryptLoop bs s).1, (cryptLoop bs s).2.rspWrite r) := by
  have after : (cryptLoop bs s).2.rspWrite r = withStreams (cryptLoop bs s).2 s.cmd (s.rsp ++ r) :=
    State.ext_fields rfl rfl rfl rfl (cryptLoop_cmd bs s) (congrArg (· ++ r) (cryptLoop_rsp bs s))
  rw [after]
  exact cryptLoop_withStreams bs s s.cmd (s.rsp ++ r)

/-- Settles O37: the loop over the joined string is the loop over the first, then over the second, and the answer
written between the two does not enter the second. -/
theorem cryptSplitsAnywhere : Obligations.CryptSplitsAnywhere := by
  intro oa ob oc as bs s live fitsA fitsB fitsC
  have liveA : ((cryptLoop as s).2.rspWrite (0x00 :: 0x11 :: 0 :: 0 :: (cryptLoop as s).1)).mode ≠ .idle := by
    rw [State.rspWrite_mode, cryptLoop_mode]
    exact live
  have runB := exec_crypt_loop ob bs _ fitsB liveA
  have runC := exec_crypt_loop oc (as ++ bs) s (by rw [List.length_append]; exact fitsC) live
  rw [cryptLoop_rspWrite] at runB
  rw [cryptLoop_append] at runC
  refine ⟨_, _, _, (cryptLoop as s).1, (cryptLoop bs (cryptLoop as s).2).1, cryptLoop_length as s,
    cryptLoop_length bs _, exec_crypt_loop oa as s fitsA live, ?_, runB, ?_, runC, ?_, ⟨rfl, rfl, rfl, rfl⟩⟩
  all_goals simp

/-- What `n` bytes leave of a context is one context (R119). -/
theorem AfterBytes.sameContext {s t u : State} {n : Nat} (ht : AfterBytes s n t) (hu : AfterBytes s n u) :
    t.sameContext u :=
  ⟨hu.S_eq.trans ht.S_eq.symm, hu.K_eq.trans ht.K_eq.symm, BitVec.eq_of_toNat_eq (hu.pos_eq.trans ht.pos_eq.symm),
    hu.mode_eq.trans ht.mode_eq.symm⟩

/-- Settles O39: what a CRYPT leaves is what its number of bytes leaves. -/
theorem keystreamIsIndependentOfTheData : Obligations.KeystreamIsIndependentOfTheData := by
  intro o1 o2 d1 d2 s live same fits1 fits2
  obtain ⟨-, after1⟩ := cryptLoop_afterBytes s d1
  obtain ⟨-, after2⟩ := cryptLoop_afterBytes s d2
  have alike := after1.sameContext (same ▸ after2)
  exact ⟨_, _, exec_crypt_loop o1 d1 s fits1 live, exec_crypt_loop o2 d2 s fits2 live, alike⟩

/-! ### The counter in closed form -/

section Counter

variable (j : Nat) (S : Block)

/-- The 64-bit counter of N8, `j` steps on and not reduced (R124). -/
def counterValue (j : Nat) (S : Block) : Nat := S[8].toNat + 0x100000000 * S[9].toNat + j

theorem ctrAdvance_n8_eight : (ctrAdvance .n8 j S)[8] = BitVec.ofNat 32 (counterValue j S) := by
  simp [ctrAdvance, counterValue]

theorem ctrAdvance_n8_nine : (ctrAdvance .n8 j S)[9] = BitVec.ofNat 32 (counterValue j S / 0x100000000) := by
  simp [ctrAdvance, counterValue]

theorem ctrAdvance_n8_other {i : Nat} (hi : i < 16) (h8 : i ≠ 8) (h9 : i ≠ 9) : (ctrAdvance .n8 j S)[i] = S[i] := by
  simp [ctrAdvance, h8.symm, h9.symm]

end Counter

/-- Arrays that agree in the counter words and in all others are the same array. -/
theorem block_ext_counter {x y : Block} (h8 : x[8] = y[8]) (h9 : x[9] = y[9])
    (other : ∀ (i : Nat) (hi : i < 16), i ≠ 8 → i ≠ 9 → x[i] = y[i]) : x = y := by
  apply Vector.ext
  intro i hi
  by_cases eight : i = 8
  · subst eight
    exact h8
  · by_cases nine : i = 9
    · subst nine
      exact h9
    · exact other i hi eight nine

/-- No step leaves the counter as it is (R124). -/
theorem ctrAdvance_zero (mode : Mode) (S : Block) : ctrAdvance mode 0 S = S := by
  cases mode with
  | idle | n16 => rfl
  | n8 =>
    have low := S[8].isLt
    have high := S[9].isLt
    refine block_ext_counter ?_ ?_ fun i hi => ctrAdvance_n8_other 0 S hi
    · rw [ctrAdvance_n8_eight]
      apply BitVec.eq_of_toNat_eq
      simp only [counterValue, BitVec.toNat_ofNat]
      omega
    · rw [ctrAdvance_n8_nine]
      apply BitVec.eq_of_toNat_eq
      simp only [counterValue, BitVec.toNat_ofNat]
      omega
  | n12 => simp [ctrAdvance]

/-- One step more is one increment more (R116, R124). -/
theorem ctrAdvance_succ (mode : Mode) (j : Nat) (S : Block) :
    ctrAdvance mode (j + 1) S = ctrInc mode (ctrAdvance mode j S) := by
  cases mode with
  | idle | n16 => rfl
  | n8 =>
    have value : counterValue (j + 1) S = counterValue j S + 1 := rfl
    have low : BitVec.ofNat 32 (counterValue j S + 1) = BitVec.ofNat 32 (counterValue j S) + 1 := BitVec.ofNat_add ..
    refine block_ext_counter ?_ ?_ fun i hi h8 h9 => ?_
    · rw [ctrAdvance_n8_eight, ctrInc_n8, incPair_eight, ctrAdvance_n8_eight, value, low]
    · rw [ctrAdvance_n8_nine, ctrInc_n8, incPair_nine, ctrAdvance_n8_eight, ctrAdvance_n8_nine, value, ← low]
      split_ifs with carry
      · have wraps : (counterValue j S + 1) % 2 ^ 32 = 0 := congrArg BitVec.toNat carry
        have next : (counterValue j S + 1) / 0x100000000 = counterValue j S / 0x100000000 + 1 := by omega
        rw [next]
        exact BitVec.ofNat_add ..
      · have stays : (counterValue j S + 1) % 2 ^ 32 ≠ 0 := fun h => carry (BitVec.eq_of_toNat_eq h)
        have same : (counterValue j S + 1) / 0x100000000 = counterValue j S / 0x100000000 := by omega
        rw [same]
    · rw [ctrAdvance_n8_other _ _ hi h8 h9, ctrInc_getElem_other .n8 _ i hi h8 h9, ctrAdvance_n8_other _ _ hi h8 h9]
  | n12 =>
    have word : BitVec.ofNat 32 (S[9].toNat + (j + 1)) = BitVec.ofNat 32 (S[9].toNat + j) + 1 :=
      BitVec.ofNat_add (S[9].toNat + j) 1
    simp only [ctrAdvance, ctrInc_n12, word, Vector.getElem_set_self, Vector.set_set]

/-- Settles O40: by induction on the number of steps. -/
theorem advancedCounterHasAClosedForm : Obligations.AdvancedCounterHasAClosedForm := by
  intro mode j S _
  induction j with
  | zero => exact (ctrAdvance_zero mode S).symm
  | succ j ih => rw [Function.iterate_succ_apply', ih, ctrAdvance_succ]

/-! ### The stream -/

/-- The block in which the keystream byte `n` of a CRYPT lies, for a context at stream byte `m`, is block
`(m + n) / 64` of the closed form (R124). -/
theorem lastBlock_of_atStream {s : State} {mode : Mode} {S0 : Block} {m : Nat} (live : mode ≠ .idle)
    (h : s.atStream mode S0 m) (n : Nat) :
    lastBlock s (blocksGenerated s.pos.toNat (n + 1)) = keyBlock (ctrAdvance mode ((m + n) / 64) S0) := by
  rw [blocksGenerated_eq, h.pos_eq]
  cases count : (m % 64 + (n + 1) + 63) / 64 - (m % 64 + 63) / 64 with
  | zero =>
    have block : m / 64 = (m + n) / 64 := by omega
    rw [lastBlock_zero, h.K_eq (by omega), block]
  | succ b =>
    have block : b + (m + 63) / 64 = (m + n) / 64 := by omega
    rw [lastBlock_succ, h.mode_eq, h.S_eq, ← advancedCounterHasAClosedForm mode _ S0 live,
      ← Function.iterate_add_apply, block, advancedCounterHasAClosedForm mode _ S0 live]

/-- The keystream byte `i` of a CRYPT at stream byte `m` is stream byte `m + i` (R124). -/
theorem nextKeyByte_of_atStream {s : State} {mode : Mode} {S0 : Block} {m : Nat} (live : mode ≠ .idle)
    (h : s.atStream mode S0 m) (i : Nat) : nextKeyByte s i = streamByte mode S0 (m + i) := by
  rw [nextKeyByte_eq, lastBlock_of_atStream live h, h.pos_eq, Nat.mod_add_mod]
  rfl

/-- `n` bytes take a context at stream byte `m` to stream byte `m + n` (R124). -/
theorem AfterBytes.atStream {s t : State} {mode : Mode} {S0 : Block} {m n : Nat} (live : mode ≠ .idle)
    (h : s.atStream mode S0 m) (after : AfterBytes s n t) : t.atStream mode S0 (m + n) where
  mode_eq := after.mode_eq.trans h.mode_eq
  pos_eq := by rw [after.pos_eq, h.pos_eq, Nat.mod_add_mod]
  S_eq := by
    have blocks : blocksGenerated (m % 64) n + (m + 63) / 64 = (m + n + 63) / 64 := by
      rw [blocksGenerated_eq]
      omega
    rw [after.S_eq, h.pos_eq, h.mode_eq, h.S_eq, ← advancedCounterHasAClosedForm mode _ S0 live,
      ← Function.iterate_add_apply, blocks, advancedCounterHasAClosedForm mode _ S0 live]
  K_eq := by
    intro used
    rw [after.K_eq]
    cases n with
    | zero => exact h.K_eq used
    | succ n =>
      have block : (m + n) / 64 = (m + (n + 1)) / 64 := by omega
      rw [lastBlock_of_atStream live h, block]

/-- A context with `POS = 0` stands at stream byte 0 of its own `S`. -/
theorem atStream_zero {s : State} (fresh : s.pos = 0) : s.atStream s.mode s.S 0 :=
  ⟨rfl, (ctrAdvance_zero s.mode s.S).symm, congrArg BitVec.toNat fresh, fun used => absurd rfl used⟩

/-- Settles O41: an INIT that succeeds leaves `POS = 0`; a CRYPT is a run of the loop, whose keystream and context are
those of the stream. -/
theorem keystreamHasAClosedForm : Obligations.KeystreamHasAClosedForm := by
  refine ⟨fun c key nonce s accepted => ?_, fun mode S0 m olen input s live h fits => ?_⟩
  · obtain ⟨layout, hl⟩ := layoutOf_effective key nonce accepted
    exact ⟨_, exec_init_accepted c key nonce s accepted layout hl, layout_mode_ne_idle layout, atStream_zero rfl⟩
  · obtain ⟨out, after⟩ := cryptLoop_afterBytes s input
    have stream := after.atStream live h
    refine ⟨_, exec_crypt_loop olen input s fits (h.mode_eq ▸ live), ?_,
      ⟨stream.mode_eq, stream.S_eq, stream.pos_eq, stream.K_eq⟩⟩
    rw [State.rspWrite_rsp, cryptLoop_rsp, out, funext (nextKeyByte_of_atStream live h)]
    rfl

/-! ### Decryption -/

/-- From `POS = 0` the keystream is fixed by `S` and `MODE`: no byte of `K` is read (R119). -/
theorem nextKeyByte_congr {s s' : State} (fresh : s.pos = 0) (fresh' : s'.pos = 0) (S_eq : s'.S = s.S)
    (mode_eq : s'.mode = s.mode) : nextKeyByte s' = nextKeyByte s := by
  funext i
  rw [nextKeyByte_of_fresh s' i fresh', nextKeyByte_of_fresh s i fresh, lastBlock_succ, lastBlock_succ, S_eq, mode_eq,
    fresh, fresh']

/-- The byte loop from `POS = 0` undoes itself: each byte is XORed with one keystream byte twice (R122 item 3). -/
theorem cryptLoop_cryptLoop {s s' : State} (fresh : s.pos = 0) (fresh' : s'.pos = 0) (S_eq : s'.S = s.S)
    (mode_eq : s'.mode = s.mode) (data : List Byte) : (cryptLoop (cryptLoop data s).1 s').1 = data := by
  obtain ⟨out, -⟩ := cryptLoop_afterBytes s data
  obtain ⟨back, -⟩ := cryptLoop_afterBytes s' (cryptLoop data s).1
  rw [back, out, nextKeyByte_congr fresh fresh' S_eq mode_eq]
  apply List.ext_getElem <;> simp

/-- An INIT that succeeds leaves one `S` and one `MODE`, not IDLE, with `POS = 0`, from every state (R114). -/
theorem exec_init_fresh (c : BitVec 64) {key nonce : List Byte} (accepted : initAccepted key nonce) :
    ∃ (S0 : Block) (mode : Mode), mode ≠ .idle ∧ ∀ s, ∃ t, exec (.init c key nonce) s = .next t
      ∧ t.S = S0 ∧ t.pos = 0 ∧ t.mode = mode := by
  obtain ⟨layout, hl⟩ := layoutOf_effective key nonce accepted
  exact ⟨_, layout.mode, layout_mode_ne_idle layout,
    fun s => ⟨_, exec_init_accepted c key nonce s accepted layout hl, rfl, rfl, rfl⟩⟩

/-- Settles O38: both INITs leave one `S` and `MODE` with `POS = 0`, so both CRYPTs use one keystream. -/
theorem cryptUndoesItself : Obligations.CryptUndoesItself := by
  intro c key nonce data o1 o2 s accepted fits1 fits2
  obtain ⟨S0, mode, live, init⟩ := exec_init_fresh c accepted
  obtain ⟨s1, run1, S1, pos1, mode1⟩ := init s
  have run2 := exec_crypt_loop o1 data s1 fits1 (mode1 ▸ live)
  obtain ⟨s3, run3, S3, pos3, mode3⟩ :=
    init ((cryptLoop data s1).2.rspWrite (0x00 :: 0x11 :: 0 :: 0 :: (cryptLoop data s1).1))
  have run4 := exec_crypt_loop o2 (cryptLoop data s1).1 s3 (by rwa [cryptLoop_length]) (mode3 ▸ live)
  rw [cryptLoop_cryptLoop pos1 pos3 (S3.trans S1.symm) (mode3.trans mode1.symm)] at run4
  refine ⟨s1, _, s3, _, (cryptLoop data s1).1, run1, run2, ?_, run3, run4, ?_⟩ <;>
    rw [State.rspWrite_rsp, cryptLoop_rsp] <;> rfl

/-! ### INIT with a 24-byte nonce -/

/-- Settles O31: HSALSA answers with the key INIT derives for itself, and INIT of that key and the last 8 nonce bytes
takes both as they are. -/
theorem xSalsaInitIsHsalsaThenInit : Obligations.XSalsaInitIsHsalsaThenInit := by
  intro c key nonce s hk hn
  have wholeKey : key.take 32 = key := List.take_of_length_le hk.le
  have reduced : effectiveKeyNonce key nonce = (hsalsa20 key (nonce.take 16), nonce.drop 16) := by
    rw [effectiveKeyNonce_eq, if_pos hn, if_pos hn, wholeKey]
  have last : (nonce.drop 16).length = 8 := by rw [List.length_drop, hn]
  have plain : effectiveKeyNonce (hsalsa20 key (nonce.take 16)) (nonce.drop 16)
      = (hsalsa20 key (nonce.take 16), nonce.drop 16) := by
    have wholeDerived := List.take_of_length_le (length_hsalsa20 key (nonce.take 16)).le
    rw [effectiveKeyNonce_eq, if_neg (by omega), if_neg (by omega), wholeDerived]
  have run := exec_init_accepted c key nonce s ⟨hk.ge, by omega⟩ .n8 (by rw [reduced, last]; rfl)
  have run2 := fun u => exec_init_accepted c (hsalsa20 key (nonce.take 16)) (nonce.drop 16) u
    ⟨(length_hsalsa20 _ _).ge, by omega⟩ .n8 (by rw [plain, last]; rfl)
  rw [reduced] at run
  rw [plain] at run2
  exact ⟨_, _, _, _, run, exec_hsalsa_accepted s hk (by rw [List.length_take, hn]; rfl), rfl, run2 _, rfl, rfl, rfl⟩

end Sys2Proof.Proofs
end

section
/-! PROOFS. What an answer can tell (20_memory.md sections 3 and 4; 30_encoding.md R75): its length, that only CRYPT's
depends on `S` and `K`, and that no answer depends on `K` while `POS = 0`. -/

namespace Sys2Proof.Proofs

open Sys2Proof Sys2Proof.Machine

/-- Settles O22: an error is four bytes, a success four and the body of R75. -/
theorem responseLengthsFollowTheTable : Obligations.ResponseLengthsFollowTheTable := by
  intro i s
  obtain ⟨error, run⟩ | ⟨ok, t, body, -, rsp, length, run⟩ := exec_answer i s
  · exact ⟨_, _, run, rfl, fun ok => absurd ok error, fun _ => rfl⟩
  · refine ⟨_, 0x00 :: i.opcodeByte :: 0 :: 0 :: body, run, by rw [State.rspWrite_rsp, rsp], fun _ => ?_,
      fun error => absurd ok error⟩
    simp only [List.length_cons, length]
    omega

/-- Settles O52: `MODE` and `POS` fix the answer, and a command that writes them writes what its operands say. -/
theorem secretsReachNoAnswerButCrypts : Obligations.SecretsReachNoAnswerButCrypts := by
  intro i s s' notCrypt mode_eq pos_eq
  obtain ⟨f, r, write, run⟩ := exec_of_ne_crypt notCrypt s.mode s.pos
  refine ⟨_, _, r, run s rfl rfl, run s' mode_eq pos_eq, ?_⟩
  cases write with
  | keep => exact ⟨rfl, rfl, mode_eq, pos_eq⟩
  | lay | clear => exact ⟨rfl, rfl, rfl, rfl⟩

/-- The first byte from `POS = 0` replaces `K` before it is read (R115, R119). -/
theorem cryptByte_setK {s : State} (fresh : s.pos = 0) (k : Block) (b : Byte) :
    cryptByte b (s.setK k) = cryptByte b s := by
  have same : refill (s.setK k) = refill s := by
    rw [refill_of_zero s fresh, refill_of_zero (s.setK k) fresh]
    rfl
  rw [cryptByte, cryptByte, same]

/-- CRYPT from `POS = 0`: refused, or of no bytes, it leaves `K` and `POS`; any other replaces `K` at its first byte. -/
theorem exec_crypt_setK {s : State} (fresh : s.pos = 0) (k : Block) (olen : Word) (input : List Byte) :
    ∃ t t' : State, exec (.crypt olen input) s = .next t ∧ exec (.crypt olen input) (s.setK k) = .next t'
      ∧ (t' = t ∨ (t.pos = 0 ∧ t' = t.setK k)) := by
  obtain ⟨small, run⟩ | ⟨fits, idle, run⟩ | ⟨fits, live, run⟩ := exec_crypt_cases olen input s
  · exact ⟨_, _, run, exec_crypt_tooSmall olen input (s.setK k) small, .inr ⟨fresh, rfl⟩⟩
  · exact ⟨_, _, run, exec_crypt_notReady olen input (s.setK k) fits idle, .inr ⟨fresh, rfl⟩⟩
  · refine ⟨_, _, run, exec_crypt_loop olen input (s.setK k) fits live, ?_⟩
    cases input with
    | nil => exact .inr ⟨fresh, rfl⟩
    | cons b bs => exact .inl (by rw [cryptLoop_cons, cryptLoop_cons, cryptByte_setK fresh])

/-- Settles O53: no command but CRYPT reads `K`, and none but DESTROY, which clears it, writes it. -/
theorem staleKeystreamIsUnobservable : Obligations.StaleKeystreamIsUnobservable := by
  intro i s k fresh
  by_cases crypt : ∃ olen input, i = .crypt olen input
  · obtain ⟨olen, input, rfl⟩ := crypt
    exact exec_crypt_setK fresh k olen input
  · obtain ⟨f, r, write, run⟩ := exec_of_ne_crypt (fun olen input e => crypt ⟨olen, input, e⟩) s.mode s.pos
    refine ⟨_, _, run s rfl rfl, run (s.setK k) rfl rfl, ?_⟩
    cases write with
    | keep => exact .inr ⟨fresh, rfl⟩
    | lay => exact .inr ⟨rfl, rfl⟩
    | clear => exact .inl rfl

end Sys2Proof.Proofs
end
